-- ==== Sys2Proof/Word.lean ====
section
/-! DEFINITION. The word types of the machine: 8-bit bytes, 16-bit words, register and key indices. -/

namespace Sys2Proof

/-- An 8-bit value: a register, a timer, a memory byte (R6, R20). -/
abbrev Byte := BitVec 8

/-- A 16-bit value: an instruction word, `I`, `pc`, a stack entry (R6). -/
abbrev Word := BitVec 16

/-- The index of a general register, 0 to 15 (R20). -/
abbrev Reg := Fin 16

/-- The index of a key, 0 to 15 (R32). -/
abbrev Key := Fin 16

end Sys2Proof
end

