-- ==== Sys2Proof/Syntax.lean ====
section
/-! DEFINITION. The instructions: one constructor for each row of the opcode map (R99), and one for every word
that selects no row (R101). -/

namespace Sys2Proof

/-- An instruction, with its operand fields and without the bits the decoder ignores (R91, R92, R103; log entry 5).
`x` and `y` are register indices, `n` a row count, `nn` an 8-bit and `nnn` a 12-bit immediate. -/
inductive Instr where
  /-- `CLS` (R200). -/
  | cls
  /-- `RET` (R143). -/
  | ret
  /-- `JP NNN` (R141). -/
  | jp (nnn : BitVec 12)
  /-- `CALL NNN` (R142). -/
  | call (nnn : BitVec 12)
  /-- `SE Vx, NN` (R144). -/
  | seImm (x : Reg) (nn : Byte)
  /-- `SNE Vx, NN` (R145). -/
  | sneImm (x : Reg) (nn : Byte)
  /-- `SE Vx, Vy` (R146). -/
  | seReg (x y : Reg)
  /-- `LD Vx, NN` (R163). -/
  | ldImm (x : Reg) (nn : Byte)
  /-- `ADD Vx, NN` (R164). -/
  | addImm (x : Reg) (nn : Byte)
  /-- `LD Vx, Vy` (R165). -/
  | ldReg (x y : Reg)
  /-- `OR Vx, Vy` (R166). -/
  | or (x y : Reg)
  /-- `AND Vx, Vy` (R167). -/
  | and (x y : Reg)
  /-- `XOR Vx, Vy` (R168). -/
  | xor (x y : Reg)
  /-- `ADD Vx, Vy` (R169). -/
  | addReg (x y : Reg)
  /-- `SUB Vx, Vy` (R170). -/
  | sub (x y : Reg)
  /-- `SHR Vx` (R171). -/
  | shr (x : Reg)
  /-- `SUBN Vx, Vy` (R172). -/
  | subn (x y : Reg)
  /-- `SHL Vx` (R173). -/
  | shl (x : Reg)
  /-- `SNE Vx, Vy` (R147). -/
  | sneReg (x y : Reg)
  /-- `LD I, NNN` (R180). -/
  | ldI (nnn : BitVec 12)
  /-- `JP V0, NNN` (R148). -/
  | jpV0 (nnn : BitVec 12)
  /-- `RND Vx, NN` (R210). -/
  | rnd (x : Reg) (nn : Byte)
  /-- `DRW Vx, Vy, N` (R201). -/
  | drw (x y : Reg) (n : BitVec 4)
  /-- `SKP Vx` (R195). -/
  | skp (x : Reg)
  /-- `SKNP Vx` (R196). -/
  | sknp (x : Reg)
  /-- `LD Vx, DT` (R190). -/
  | ldFromDT (x : Reg)
  /-- `LD Vx, K` (R194). -/
  | ldKey (x : Reg)
  /-- `LD DT, Vx` (R191). -/
  | ldDT (x : Reg)
  /-- `LD ST, Vx` (R192). -/
  | ldST (x : Reg)
  /-- `ADD I, Vx` (R181). -/
  | addI (x : Reg)
  /-- `LD F, Vx` (R193). -/
  | ldF (x : Reg)
  /-- `LD B, Vx` (R182). -/
  | ldB (x : Reg)
  /-- `LD [I], Vx` (R183). -/
  | storeRegs (x : Reg)
  /-- `LD Vx, [I]` (R184). -/
  | loadRegs (x : Reg)
  /-- An unknown opcode, with its whole word (R101, R125). -/
  | unknown (w : Word)
  deriving DecidableEq, Repr

end Sys2Proof
end

