-- ==== Sys2Proof/Decode.lean ====
section
/-! DEFINITION. The decoder (R90 to R98), the opcode map as the spec's table gives it (R99), the unknown words
(R101), and the encoder of the canonical words (R100). -/

namespace Sys2Proof

/-! ### The fields of an instruction word (R9) -/

/-- `op = w[15:12]`, the primary group (R9). -/
def Field.op (w : Word) : BitVec 4 := w.extractLsb' 12 4

/-- `x = w[11:8]` as a register index (R9, R92). -/
def Field.x (w : Word) : Reg := (w.extractLsb' 8 4).toFin

/-- `y = w[7:4]` as bits: the second selector of `0xF_05` (R9, R97). -/
def Field.ysel (w : Word) : BitVec 4 := w.extractLsb' 4 4

/-- `y = w[7:4]` as a register index (R9, R92). -/
def Field.y (w : Word) : Reg := (Field.ysel w).toFin

/-- `n = w[3:0]` (R9). -/
def Field.n (w : Word) : BitVec 4 := w.extractLsb' 0 4

/-- `nn = w[7:0]` (R9). -/
def Field.nn (w : Word) : Byte := w.extractLsb' 0 8

/-- `nnn = w[11:0]` (R9). -/
def Field.nnn (w : Word) : BitVec 12 := w.extractLsb' 0 12

/-! ### The decoder -/

/-- Group 0: by the low nibble, bits 11:4 ignored (R94). -/
def decodeGroup0 (w : Word) : Instr :=
  match Field.n w with
  | 0x0#4 => .cls
  | 0xE#4 => .ret
  | _ => .unknown w

/-- Group 8: by the low nibble (R95). -/
def decodeGroup8 (w : Word) : Instr :=
  match Field.n w with
  | 0x0#4 => .ldReg (Field.x w) (Field.y w)
  | 0x1#4 => .or (Field.x w) (Field.y w)
  | 0x2#4 => .and (Field.x w) (Field.y w)
  | 0x3#4 => .xor (Field.x w) (Field.y w)
  | 0x4#4 => .addReg (Field.x w) (Field.y w)
  | 0x5#4 => .sub (Field.x w) (Field.y w)
  | 0x6#4 => .shr (Field.x w)
  | 0x7#4 => .subn (Field.x w) (Field.y w)
  | 0xE#4 => .shl (Field.x w)
  | _ => .unknown w

/-- Group E: by the whole low byte (R96). -/
def decodeGroupE (w : Word) : Instr :=
  match Field.nn w with
  | 0x9E#8 => .skp (Field.x w)
  | 0xA1#8 => .sknp (Field.x w)
  | _ => .unknown w

/-- The sub-case `0xF_05` of group F: by `y` (R97). -/
def decodeGroupF5 (w : Word) : Instr :=
  match Field.ysel w with
  | 0x1#4 => .ldDT (Field.x w)
  | 0x5#4 => .storeRegs (Field.x w)
  | 0x6#4 => .loadRegs (Field.x w)
  | _ => .unknown w

/-- Group F: by the low nibble, bits 7:4 ignored but for low nibble 5 (R97). -/
def decodeGroupF (w : Word) : Instr :=
  match Field.n w with
  | 0x3#4 => .ldB (Field.x w)
  | 0x5#4 => decodeGroupF5 w
  | 0x7#4 => .ldFromDT (Field.x w)
  | 0x8#4 => .ldST (Field.x w)
  | 0x9#4 => .ldF (Field.x w)
  | 0xA#4 => .ldKey (Field.x w)
  | 0xE#4 => .addI (Field.x w)
  | _ => .unknown w

/-- The instruction a word stands for: total, since every word that is no defined instruction is an unknown
opcode (R93, R98, R101, R102, R122). -/
def decodeWord (w : Word) : Instr :=
  match Field.op w with
  | 0x0#4 => decodeGroup0 w
  | 0x1#4 => .jp (Field.nnn w)
  | 0x2#4 => .call (Field.nnn w)
  | 0x3#4 => .seImm (Field.x w) (Field.nn w)
  | 0x4#4 => .sneImm (Field.x w) (Field.nn w)
  | 0x5#4 => .seReg (Field.x w) (Field.y w)
  | 0x6#4 => .ldImm (Field.x w) (Field.nn w)
  | 0x7#4 => .addImm (Field.x w) (Field.nn w)
  | 0x8#4 => decodeGroup8 w
  | 0x9#4 => .sneReg (Field.x w) (Field.y w)
  | 0xA#4 => .ldI (Field.nnn w)
  | 0xB#4 => .jpV0 (Field.nnn w)
  | 0xC#4 => .rnd (Field.x w) (Field.nn w)
  | 0xD#4 => .drw (Field.x w) (Field.y w) (Field.n w)
  | 0xE#4 => decodeGroupE w
  | _ => decodeGroupF w

/-- The word of two bytes, the byte at the lower address first: big-endian (R62, R90). -/
def wordOfBytes (hi lo : Byte) : Word := hi ++ lo

/-- The high byte of a word: it lies at the lower address (R62). -/
def highByte (w : Word) : Byte := w.extractLsb' 8 8

/-- The low byte of a word (R62). -/
def lowByte (w : Word) : Byte := w.extractLsb' 0 8

/-- Why a byte sequence holds no instruction at its start. -/
inductive DecodeError where
  /-- Fewer than the two bytes of an instruction are left (R90). Safe: nothing is decoded. -/
  | truncated
  deriving DecidableEq, Repr

/-- The instruction at the start of a byte sequence, with the bytes after it; refused by name where fewer than two
bytes are left (R90). -/
def decode : List Byte → Except DecodeError (Instr × List Byte)
  | hi :: lo :: rest => .ok (decodeWord (wordOfBytes hi lo), rest)
  | _ => .error .truncated

/-! ### The opcode map as a table (R99) -/

/-- A row of the opcode map: a word `w` selects it when `w & mask = bits` (R99). -/
structure OpRow where
  mask : Word
  bits : Word
  deriving DecidableEq, Repr

/-- Does the word select the row (R99)? -/
def OpRow.selects (r : OpRow) (w : Word) : Bool := w &&& r.mask == r.bits

/-- Rows 1 to 34 of the opcode map, in the spec's order (R99). -/
def opcodeMap : List OpRow :=
  [⟨0xF00F, 0x0000⟩, ⟨0xF00F, 0x000E⟩, ⟨0xF000, 0x1000⟩, ⟨0xF000, 0x2000⟩, ⟨0xF000, 0x3000⟩, ⟨0xF000, 0x4000⟩,
    ⟨0xF000, 0x5000⟩, ⟨0xF000, 0x6000⟩, ⟨0xF000, 0x7000⟩] ++
  [⟨0xF00F, 0x8000⟩, ⟨0xF00F, 0x8001⟩, ⟨0xF00F, 0x8002⟩, ⟨0xF00F, 0x8003⟩, ⟨0xF00F, 0x8004⟩, ⟨0xF00F, 0x8005⟩,
    ⟨0xF00F, 0x8006⟩, ⟨0xF00F, 0x8007⟩, ⟨0xF00F, 0x800E⟩] ++
  [⟨0xF000, 0x9000⟩, ⟨0xF000, 0xA000⟩, ⟨0xF000, 0xB000⟩, ⟨0xF000, 0xC000⟩, ⟨0xF000, 0xD000⟩, ⟨0xF0FF, 0xE09E⟩,
    ⟨0xF0FF, 0xE0A1⟩] ++
  [⟨0xF00F, 0xF007⟩, ⟨0xF00F, 0xF00A⟩, ⟨0xF0FF, 0xF015⟩, ⟨0xF00F, 0xF008⟩, ⟨0xF00F, 0xF00E⟩, ⟨0xF00F, 0xF009⟩,
    ⟨0xF00F, 0xF003⟩, ⟨0xF0FF, 0xF055⟩, ⟨0xF0FF, 0xF065⟩]

/-- The row of the opcode map an instruction stands in, counted from 0; 34 for an unknown opcode (R99). -/
def Instr.rowIndex : Instr → Nat
  | .cls => 0
  | .ret => 1
  | .jp _ => 2
  | .call _ => 3
  | .seImm _ _ => 4
  | .sneImm _ _ => 5
  | .seReg _ _ => 6
  | .ldImm _ _ => 7
  | .addImm _ _ => 8
  | .ldReg _ _ => 9
  | .or _ _ => 10
  | .and _ _ => 11
  | .xor _ _ => 12
  | .addReg _ _ => 13
  | .sub _ _ => 14
  | .shr _ => 15
  | .subn _ _ => 16
  | .shl _ => 17
  | .sneReg _ _ => 18
  | .ldI _ => 19
  | .jpV0 _ => 20
  | .rnd _ _ => 21
  | .drw _ _ _ => 22
  | .skp _ => 23
  | .sknp _ => 24
  | .ldFromDT _ => 25
  | .ldKey _ => 26
  | .ldDT _ => 27
  | .ldST _ => 28
  | .addI _ => 29
  | .ldF _ => 30
  | .ldB _ => 31
  | .storeRegs _ => 32
  | .loadRegs _ => 33
  | .unknown _ => 34

/-- The unknown words, from the table of R101: in group 0, 8, E and F the selectors it lists, in no other group. -/
def isUnknownWord (w : Word) : Bool :=
  let op := w.toNat / 4096
  let nn := w.toNat % 256
  let y := w.toNat / 16 % 16
  let n := w.toNat % 16
  if op = 0 then [1, 2, 3, 4, 5, 6, 7, 8, 9, 0xA, 0xB, 0xC, 0xD, 0xF].contains n
  else if op = 8 then [8, 9, 0xA, 0xB, 0xC, 0xD, 0xF].contains n
  else if op = 0xE then !([0x9E, 0xA1].contains nn)
  else if op = 0xF then [0, 1, 2, 4, 6, 0xB, 0xC, 0xD, 0xF].contains n || (n == 5 && !([1, 5, 6].contains y))
  else false

/-! ### The encoder -/

/-- A register index as the four bits of a field (R92). -/
def regBits (r : Reg) : BitVec 4 := BitVec.ofFin r

/-- Format NNN: a group and a 12-bit immediate (R91). -/
def encodeNNN (op : BitVec 4) (nnn : BitVec 12) : Word := op ++ nnn

/-- Formats XNN and XS: a group, a register and a low byte (R91). -/
def encodeXNN (op : BitVec 4) (x : Reg) (nn : Byte) : Word := op ++ regBits x ++ nn

/-- Format XYN: a group, two registers and a low nibble (R91). -/
def encodeXYN (op : BitVec 4) (x y : Reg) (n : BitVec 4) : Word := op ++ regBits x ++ regBits y ++ n

/-- The canonical word of an instruction (R100, R103). -/
def encode : Instr → Word
  | .cls => 0x00E0
  | .ret => 0x00EE
  | .jp nnn => encodeNNN 0x1 nnn
  | .call nnn => encodeNNN 0x2 nnn
  | .seImm x nn => encodeXNN 0x3 x nn
  | .sneImm x nn => encodeXNN 0x4 x nn
  | .seReg x y => encodeXYN 0x5 x y 0x0
  | .ldImm x nn => encodeXNN 0x6 x nn
  | .addImm x nn => encodeXNN 0x7 x nn
  | .ldReg x y => encodeXYN 0x8 x y 0x0
  | .or x y => encodeXYN 0x8 x y 0x1
  | .and x y => encodeXYN 0x8 x y 0x2
  | .xor x y => encodeXYN 0x8 x y 0x3
  | .addReg x y => encodeXYN 0x8 x y 0x4
  | .sub x y => encodeXYN 0x8 x y 0x5
  | .shr x => encodeXNN 0x8 x 0x06
  | .subn x y => encodeXYN 0x8 x y 0x7
  | .shl x => encodeXNN 0x8 x 0x0E
  | .sneReg x y => encodeXYN 0x9 x y 0x0
  | .ldI nnn => encodeNNN 0xA nnn
  | .jpV0 nnn => encodeNNN 0xB nnn
  | .rnd x nn => encodeXNN 0xC x nn
  | .drw x y n => encodeXYN 0xD x y n
  | .skp x => encodeXNN 0xE x 0x9E
  | .sknp x => encodeXNN 0xE x 0xA1
  | .ldFromDT x => encodeXNN 0xF x 0x07
  | .ldKey x => encodeXNN 0xF x 0x0A
  | .ldDT x => encodeXNN 0xF x 0x15
  | .ldST x => encodeXNN 0xF x 0x18
  | .addI x => encodeXNN 0xF x 0x1E
  | .ldF x => encodeXNN 0xF x 0x29
  | .ldB x => encodeXNN 0xF x 0x33
  | .storeRegs x => encodeXNN 0xF x 0x55
  | .loadRegs x => encodeXNN 0xF x 0x65
  | .unknown w => w

/-- The two bytes of an instruction as they lie in memory, high byte first (R62, R90). -/
def encodeBytes (i : Instr) : List Byte := [highByte (encode i), lowByte (encode i)]

/-! ### The host's view of a table word -/

/-- The instruction word that has the bits `w` below bit `nbits` and zeros above (log entry 8). -/
def tableWord (nbits w : Nat) : Word := BitVec.ofNat 16 (w % 2 ^ nbits)

/-- The instruction the decoder reads from an instruction whose bits are `w`: the word is laid out as the hardware
stores it, high byte first (R62), and given to `decode`. -/
def decodeTableWord (nbits w : Nat) : Option Instr :=
  match decode [highByte (tableWord nbits w), lowByte (tableWord nbits w)] with
  | .ok (i, _) => some i
  | .error _ => none

end Sys2Proof
end

