-- ==== Sys2Proof/Config.lean ====
section
/-! DEFINITION. The sizes the spec fixes (R6) and the one free value it leaves open (R7: RND). -/

namespace Sys2Proof

/-- MEM_SIZE: bytes of memory, addresses 0 to 4095 (R6). -/
abbrev Config.memSize : Nat := 4096

/-- PROG_BASE: load address and reset pc (R6). -/
abbrev Config.progBase : Nat := 0x200

/-- PROG_MAX: the longest program image, in bytes (R6). -/
abbrev Config.progMax : Nat := 3584

/-- Highest pc at which a fetch succeeds (R6). -/
abbrev Config.lastFetch : Nat := 4094

/-- STACK_DEPTH: entries of the call stack (R6). -/
abbrev Config.stackDepth : Nat := 16

/-- SCREEN_W: columns of the screen (R6). -/
abbrev Config.screenW : Nat := 64

/-- SCREEN_H: rows of the screen (R6). -/
abbrev Config.screenH : Nat := 32

/-- RND, the random source (R7, R210, R242): the byte supplied at the k-th draw. A FREE VALUE (log entry 1,
DESIGN CHOICE): it has no body, so nothing can be proved of it but what holds of every byte. -/
opaque Config.randomByte : Nat → Byte

end Sys2Proof
end

