-- ==== Sys2Proof/Machine/State.lean ====
section
/-! DEFINITION. The machine's state (10_state.md), its fault register, its output events, the ways a step can stop,
and the state after reset (R41). -/

namespace Sys2Proof.Machine

/-- Memory as (address, byte) cells in one canonical form (log entry 4): addresses strictly rising, none above 4095,
no cell equal to what an unlisted address reads as (`Memory.wf`). -/
abbrev Memory := List Host.Cell

/-- What the fault register records: one of five codes with its information (R220). -/
inductive CoreFault where
  /-- Code 1: a step began with `pc > 4094`; holds `pc` (R221). -/
  | fetchOutOfBounds (pc : Word)
  /-- Code 2: LD B, LD [I], LD Vx [I] or DRW would access an address above 4095; holds the highest one (R222). -/
  | memOutOfBounds (addr : Nat)
  /-- Code 3: CALL with 16 entries on the stack; holds `pc` (R223). -/
  | stackOverflow (pc : Word)
  /-- Code 4: RET with an empty stack; holds `pc` (R225). -/
  | stackUnderflow (pc : Word)
  /-- Code 5: SKP or SKNP with `V[x] > 15`; holds `V[x]` (R226). -/
  | keyIndexOutOfRange (vx : Byte)
  deriving DecidableEq, Repr

/-- A record of `pixelChangeQueue`: a column, a row and the pixel's new value (R36). -/
structure PixelRecord where
  xx : Fin 64
  yy : Fin 32
  v : Bool
  deriving DecidableEq, Repr

/-- The output events of a step (R34). -/
inductive Event where
  /-- DRW flipped a pixel (R201, R238). -/
  | pixel (r : PixelRecord)
  /-- The tick took ST from 1 to 0 (R129). -/
  | beep
  /-- An unknown opcode was executed (R125, R241). -/
  | unknownOpcode (w : Word)
  deriving DecidableEq, Repr

/-- Everything the spec gives the machine (10_state.md), and two fields of the model's own. -/
structure State where
  /-- 4096 bytes (R39, R60). -/
  memory : Memory
  /-- The general registers; `V[15]` is `VF` (R20, R21). -/
  V : Vector Byte 16
  /-- The index register (R26). -/
  I : Word
  /-- The program counter (R23). -/
  pc : Word
  /-- The call stack, not part of memory (R27). -/
  stack : Vector Word 16
  /-- The stack pointer, 0 to 16 (R28). -/
  sp : Fin 17
  /-- The delay timer (R29). -/
  DT : Byte
  /-- The sound timer (R30). -/
  ST : Byte
  /-- The pixels, `screen[yy][xx]`: rows from the top, columns from the left (R31). -/
  screen : Vector (Vector Bool 64) 32
  /-- The key states, true = down (R32). -/
  keys : Vector Bool 16
  /-- The most recently fetched word (R33). -/
  currentOpcode : Word
  /-- Set by CLS, cleared by the host (R35). -/
  redrawRequested : Bool
  /-- The pixel flips the host has not drained yet, oldest first (R36). -/
  pixelChangeQueue : List PixelRecord
  /-- The fault register: `none`, or the fault that halted the core (R37). -/
  fault : Option CoreFault
  /-- The model's own: the output events of the most recent step, in order (R34, R131; log entry 2). -/
  events : List Event
  /-- The model's own: how many random bytes RND has drawn so far (R210; log entry 1). -/
  rndCount : Nat
  deriving DecidableEq, Repr

/-- Reasons for which a step stops without a next state: THERE ARE NONE. Every fault the spec gives is taken, as R224
describes, by writing the fault register in a next state (log entry 3), and a halted core steps to itself (R126). -/
inductive Fault
  deriving DecidableEq, Repr

/-- Reasons for which an instruction is given no meaning. -/
inductive Refusal where
  /-- The instruction has no meaning in the model. Raised by no arm of `exec`: every row of the opcode map is
  modelled. Safe: nothing is proved of an instruction that is refused. -/
  | notModelled (mnemonic : String)
  deriving DecidableEq, Repr

/-- The answer of an instruction or a step. -/
abbrev Result := Host.Outcome State Fault Refusal

/-- The state after construction and after `reset` (R41, R260, R261). The two fields of the model's own start empty
and at 0 (log entries 1 and 2). -/
def State.reset : State where
  memory := []
  V := Vector.replicate 16 0
  I := 0
  pc := 0x200
  stack := Vector.replicate 16 0
  sp := 0
  DT := 0
  ST := 0
  screen := Vector.replicate 32 (Vector.replicate 64 false)
  keys := Vector.replicate 16 false
  currentOpcode := 0
  redrawRequested := false
  pixelChangeQueue := []
  fault := none
  events := []
  rndCount := 0

end Sys2Proof.Machine
end

