-- ==== Sys2Proof/Machine/Memory.lean ====
section
/-! DEFINITION. The byte memory (20_memory.md): the font, what an unlisted address reads as, reading and writing one
byte, and the canonical form. -/

namespace Sys2Proof.Machine

/-- The built-in font: glyph `d` in bytes `5*d` to `5*d + 4` (R77; log entry 7). -/
def font : List Byte :=
  [0xF0, 0x90, 0x90, 0x90, 0xF0] ++ [0x20, 0x60, 0x20, 0x20, 0x70] ++
  [0xF0, 0x10, 0xF0, 0x80, 0xF0] ++ [0xF0, 0x10, 0xF0, 0x10, 0xF0] ++
  [0x90, 0x90, 0xF0, 0x10, 0x10] ++ [0xF0, 0x80, 0xF0, 0x10, 0xF0] ++
  [0xF0, 0x80, 0xF0, 0x90, 0xF0] ++ [0xF0, 0x10, 0x20, 0x40, 0x40] ++
  [0xF0, 0x90, 0xF0, 0x90, 0xF0] ++ [0xF0, 0x90, 0xF0, 0x10, 0xF0] ++
  [0xF0, 0x90, 0xF0, 0x90, 0x90] ++ [0xE0, 0x90, 0xE0, 0x90, 0xE0] ++
  [0xF0, 0x80, 0x80, 0x80, 0xF0] ++ [0xE0, 0x90, 0x90, 0x90, 0xE0] ++
  [0xF0, 0x80, 0xF0, 0x80, 0xF0] ++ [0xF0, 0x80, 0xF0, 0x80, 0x80]

/-- What an address no cell lists reads as: its byte after reset, the font in 0 to 79 and zero above (R41, R61). -/
def Memory.unlisted (a : Nat) : Byte := font.getD a 0

/-- The byte at an address (R68). -/
def Memory.read : Memory → Nat → Byte
  | [], a => Memory.unlisted a
  | (k, v) :: rest, a => if k = a then v else Memory.read rest a

/-- Put a cell before the first cell of a higher address. -/
def Memory.insert (a : Nat) (v : Byte) : Memory → Memory
  | [] => [(a, v)]
  | (k, b) :: rest => if a < k then (a, v) :: (k, b) :: rest else (k, b) :: Memory.insert a v rest

/-- Store a byte at an address (R68): any cell of that address goes, and a new one comes unless the value is what the
unlisted address reads as. -/
def Memory.write (m : Memory) (a : Nat) (v : Byte) : Memory :=
  let m' := m.filter (fun c => c.1 ≠ a)
  if v = Memory.unlisted a then m' else Memory.insert a v m'

/-- Store bytes at ascending addresses from `a` (R63, R262). -/
def Memory.writeList (m : Memory) (a : Nat) : List Byte → Memory
  | [] => m
  | b :: bs => Memory.writeList (Memory.write m a b) (a + 1) bs

/-- The canonical form: addresses strictly rising, all at most 4095 (R60), no cell that says what is read without it. -/
def Memory.wf : Memory → Bool
  | [] => true
  | (k, v) :: rest =>
    rest.all (fun c => k < c.1) && decide (k < Config.memSize) && decide (v ≠ Memory.unlisted k) && Memory.wf rest

end Sys2Proof.Machine
end

