-- ==== Sys2Proof/Machine/Ops.lean ====
section
/-! DEFINITION. The named operations over the registers, the memory, the program counter and the fault register that
every instruction is made of (R11), taking a fault (R224) and leaving the fault state (R229). -/

namespace Sys2Proof.Machine

/-- The flag register `VF` (R21). -/
def VF : Reg := 15

/-- `V[i]` (R11, R20). -/
def getV (s : State) (i : Reg) : Byte := s.V[i]

/-- `V[i] <- v` (R11, R20). -/
def setV (s : State) (i : Reg) (v : Byte) : State := { s with V := s.V.set i v }

/-- `I <- v` (R11, R26). -/
def setI (s : State) (v : Word) : State := { s with I := v }

/-- `pc <- target` (R11, R23). -/
def setPc (s : State) (target : Word) : State := { s with pc := target }

/-- `pc <- pc + k`, modulo 65536 (R24). -/
def advance (s : State) (k : Nat) : State := setPc s (s.pc + BitVec.ofNat 16 k)

/-- The advance of a conditional skip: by 4 when the condition holds, else by 2 (R24, R123). -/
def skipIf (cond : Bool) (s : State) : State := advance s (if cond then 4 else 2)

/-- The byte at an address (R68). -/
def readByte (s : State) (a : Nat) : Byte := Memory.read s.memory a

/-- Store a byte at an address (R68). -/
def writeByte (s : State) (a : Nat) (v : Byte) : State := { s with memory := Memory.write s.memory a v }

/-- `emit` an output event (R11, R34). -/
def emit (s : State) (e : Event) : State := { s with events := s.events ++ [e] }

/-- FAULT ENTRY, the one operation every fault takes: the fault register records the fault and nothing else changes:
control goes nowhere, `pc` keeps the address of the faulting instruction (R224). -/
def raise (s : State) (f : CoreFault) : State := { s with fault := some f }

/-- LEAVING THE FAULT STATE: there is no return from a fault; only the host's `reset` leaves it, by putting everything
at its reset value (R229, R260). The random source is outside the core (R242), so its next byte is no earlier one
(log entry 10). -/
def resetCore (s : State) : State := { State.reset with rndCount := s.rndCount }

/-- Is the core halted by a fault (R37, R126)? -/
def halted (s : State) : Bool := s.fault.isSome

/-- The number of a fault's code, 0 for none (R220). -/
def faultCode : Option CoreFault → Nat
  | none => 0
  | some (.fetchOutOfBounds _) => 1
  | some (.memOutOfBounds _) => 2
  | some (.stackOverflow _) => 3
  | some (.stackUnderflow _) => 4
  | some (.keyIndexOutOfRange _) => 5

/-- The bounds check of an instruction that accesses memory, made before its first read or write: the highest address
must be at most 4095, else the instruction faults with no effect (R66, R222). -/
def checkMem (s : State) (highest : Nat) (done : State) : Result :=
  if highest < Config.memSize then .next done else .next (raise s (.memOutOfBounds highest))

/-- The key-index check of SKP and SKNP: the value must be at most 15, else the instruction faults with no effect
(R197, R226). -/
def checkKey (s : State) (v : Byte) (done : Key → State) : Result :=
  if h : v.toNat < 16 then .next (done ⟨v.toNat, h⟩) else .next (raise s (.keyIndexOutOfRange v))

/-- Push on the call stack, or fault when 16 entries are on it (R142, R223). -/
def pushStack (s : State) (v : Word) (done : State → State) : Result :=
  if h : s.sp.val < 16 then
    .next (done { s with stack := s.stack.set s.sp.val v, sp := ⟨s.sp.val + 1, by omega⟩ })
  else .next (raise s (.stackOverflow s.pc))

/-- Pop the call stack, or fault when it is empty; the popped entry stays where it is (R27, R143, R225). -/
def popStack (s : State) (done : Word → State → State) : Result :=
  if h : 0 < s.sp.val then
    .next (done (s.stack[s.sp.val - 1]'(by omega)) { s with sp := ⟨s.sp.val - 1, by omega⟩ })
  else .next (raise s (.stackUnderflow s.pc))

end Sys2Proof.Machine
end

