-- ==== Sys2Proof/Machine/Flags.lean ====
section
/-! DEFINITION. The flag computations (R25, R161) and the write order of an instruction that writes a flag and a
result (R160). -/

namespace Sys2Proof.Machine

/-- A flag as a register value, 1 or 0 (R25). -/
def flagByte (b : Bool) : Byte := if b then 1 else 0

/-- The carry of an addition: 1 exactly when the 9-bit sum exceeds 255 (R161, R169). -/
def carry (a b : Byte) : Bool := a.toNat + b.toNat > 255

/-- The "not borrow" of `a - b`: 0 exactly when `b > a` (R161, R170, R172). -/
def notBorrow (a b : Byte) : Bool := b.toNat ≤ a.toNat

/-- The bit a right shift by one shifts out (R171). -/
def lowBit (a : Byte) : Bool := a.getLsbD 0

/-- The bit a left shift by one shifts out (R173). -/
def highBit (a : Byte) : Bool := a.getLsbD 7

/-- Write the flag to `VF` first and the result to `V[x]` second: with x = 15 the result stays (R160). -/
def setFlagThenV (s : State) (x : Reg) (flag : Bool) (result : Byte) : State :=
  setV (setV s VF (flagByte flag)) x result

end Sys2Proof.Machine
end

