-- ==== Sys2Proof/Machine/ArithLogic.lean ====
section
/-! DEFINITION. The arithmetic and logic instructions (42_arith_logic.md, R160 to R173). -/

namespace Sys2Proof.Machine

/-- The frame of an instruction that writes one register and goes on (R24, R162). -/
def writeV (s : State) (x : Reg) (v : Byte) : Result := .next (advance (setV s x v) 2)

/-- The frame of an instruction that writes the flag and a result and goes on (R160). -/
def writeFlagV (s : State) (x : Reg) (flag : Bool) (v : Byte) : Result := .next (advance (setFlagThenV s x flag v) 2)

/-- `LD Vx, NN` (R163). -/
def execLdImm (x : Reg) (nn : Byte) (s : State) : Result := writeV s x nn

/-- `ADD Vx, NN`: modulo 256, `VF` not written (R164). -/
def execAddImm (x : Reg) (nn : Byte) (s : State) : Result := writeV s x (getV s x + nn)

/-- `LD Vx, Vy` (R165). -/
def execLdReg (x y : Reg) (s : State) : Result := writeV s x (getV s y)

/-- `OR Vx, Vy` (R166). -/
def execOr (x y : Reg) (s : State) : Result := writeV s x (getV s x ||| getV s y)

/-- `AND Vx, Vy` (R167). -/
def execAnd (x y : Reg) (s : State) : Result := writeV s x (getV s x &&& getV s y)

/-- `XOR Vx, Vy` (R168). -/
def execXor (x y : Reg) (s : State) : Result := writeV s x (getV s x ^^^ getV s y)

/-- `ADD Vx, Vy`: flag = carry (R169). -/
def execAddReg (x y : Reg) (s : State) : Result :=
  writeFlagV s x (carry (getV s x) (getV s y)) (getV s x + getV s y)

/-- `SUB Vx, Vy`: flag = not borrow of `vx - vy` (R170). -/
def execSub (x y : Reg) (s : State) : Result :=
  writeFlagV s x (notBorrow (getV s x) (getV s y)) (getV s x - getV s y)

/-- `SHR Vx`: shifts `V[x]` in place, flag = the bit shifted out (R171). -/
def execShr (x : Reg) (s : State) : Result := writeFlagV s x (lowBit (getV s x)) (getV s x >>> 1)

/-- `SUBN Vx, Vy`: flag = not borrow of `vy - vx` (R172). -/
def execSubn (x y : Reg) (s : State) : Result :=
  writeFlagV s x (notBorrow (getV s y) (getV s x)) (getV s y - getV s x)

/-- `SHL Vx`: shifts `V[x]` in place, flag = the bit shifted out (R173). -/
def execShl (x : Reg) (s : State) : Result := writeFlagV s x (highBit (getV s x)) (getV s x <<< 1)

end Sys2Proof.Machine
end

