-- ==== Sys2Proof/Machine/Operands.lean ====
section
/-! DEFINITION. The operand forms: register lists, zero extension, effective addresses, the font address, decimal
digits and the pressed key. -/

namespace Sys2Proof.Machine

/-- `zext_16` of a 12-bit immediate (R10, R92). -/
def zext12 (nnn : BitVec 12) : Word := nnn.zeroExtend 16

/-- `zext_16` of a byte (R10). -/
def zext8 (v : Byte) : Word := v.zeroExtend 16

/-- The effective address of the k-th access of a transfer: `I + k` as a natural number, never reduced (R66, R185). -/
def effAddr (s : State) (k : Nat) : Nat := s.I.toNat + k

/-- The sixteen indices, ascending. -/
def indices : List (Fin 16) := [0, 1, 2, 3, 4, 5, 6, 7, 8, 9, 10, 11, 12, 13, 14, 15]

/-- The registers of a bulk transfer: 0 to x, ascending, inclusive (R183, R184). -/
def regsUpTo (x : Reg) : List Reg := indices.filter (fun i => i ≤ x)

/-- The least pressed key, if a key is down (R194). -/
def lowestKey (s : State) : Option Key := indices.find? (fun k => s.keys[k])

/-- A key's index as a register value (R194). -/
def keyByte (k : Key) : Byte := BitVec.ofNat 8 k.val

/-- The address of the glyph the low nibble of a value selects: `5 * (v & 0x0F)` (R193). -/
def glyphAddr (v : Byte) : Word := BitVec.ofNat 16 (5 * (v &&& 0x0F#8).toNat)

/-- The hundreds digit of a byte (R182). -/
def hundreds (v : Byte) : Byte := BitVec.ofNat 8 (v.toNat / 100)

/-- The tens digit of a byte (R182). -/
def tens (v : Byte) : Byte := BitVec.ofNat 8 (v.toNat / 10 % 10)

/-- The ones digit of a byte (R182). -/
def ones (v : Byte) : Byte := BitVec.ofNat 8 (v.toNat % 10)

end Sys2Proof.Machine
end

