-- ==== Sys2Proof/Machine/ControlFlow.lean ====
section
/-! DEFINITION. The control-flow instructions (41_control_flow.md, R140 to R148). -/

namespace Sys2Proof.Machine

/-- `JP NNN` (R141). -/
def execJp (nnn : BitVec 12) (s : State) : Result := .next (setPc s (zext12 nnn))

/-- `CALL NNN`: pushes its own address (R142). -/
def execCall (nnn : BitVec 12) (s : State) : Result := pushStack s s.pc (fun t => setPc t (zext12 nnn))

/-- `RET`: goes to the popped address plus 2 (R143). -/
def execRet (s : State) : Result := popStack s (fun a t => setPc t (a + 2))

/-- `SE Vx, NN` (R144). -/
def execSeImm (x : Reg) (nn : Byte) (s : State) : Result := .next (skipIf (getV s x == nn) s)

/-- `SNE Vx, NN` (R145). -/
def execSneImm (x : Reg) (nn : Byte) (s : State) : Result := .next (skipIf (getV s x != nn) s)

/-- `SE Vx, Vy` (R146). -/
def execSeReg (x y : Reg) (s : State) : Result := .next (skipIf (getV s x == getV s y) s)

/-- `SNE Vx, Vy` (R147). -/
def execSneReg (x y : Reg) (s : State) : Result := .next (skipIf (getV s x != getV s y) s)

/-- `JP V0, NNN`: the sum is not reduced modulo 4096 (R148). -/
def execJpV0 (nnn : BitVec 12) (s : State) : Result := .next (setPc s (zext12 nnn + zext8 (getV s 0)))

end Sys2Proof.Machine
end

