-- ==== Sys2Proof/Machine/Draw.lean ====
section
/-! DEFINITION. The screen instructions: clear and draw (45_draw.md, R200 to R204). -/

namespace Sys2Proof.Machine

/-- The blank screen (R41, R200). -/
def blankScreen : Vector (Vector Bool 64) 32 := Vector.replicate 32 (Vector.replicate 64 false)

/-- `CLS`: the queue is left alone (R200). -/
def execCls (s : State) : Result := .next (advance { s with screen := blankScreen, redrawRequested := true } 2)

/-- The pixel at a column and a row (R31). -/
def pixelAt (s : State) (xx : Fin 64) (yy : Fin 32) : Bool := s.screen[yy][xx]

/-- Flip a pixel: an on pixel turned off sets `VF`, and the flip is recorded in the queue and emitted (R201). -/
def flipPixel (s : State) (xx : Fin 64) (yy : Fin 32) : State :=
  let old := pixelAt s xx yy
  let r : PixelRecord := ⟨xx, yy, !old⟩
  let t := { s with screen := s.screen.set yy (s.screen[yy].set xx (!old)) }
  let t := if old then setV t VF 1 else t
  emit { t with pixelChangeQueue := t.pixelChangeQueue ++ [r] } (.pixel r)

/-- Draw one set sprite bit at a column and a row given as natural numbers; off the screen it is clipped (R203). -/
def drawPixel (s : State) (xx yy : Nat) : State :=
  if h : xx < 64 ∧ yy < 32 then flipPixel s ⟨xx, h.1⟩ ⟨yy, h.2⟩ else s

/-- Draw a sprite row: its bits left to right, the most significant bit leftmost (R201, R202). -/
def drawRow (s : State) (b : Byte) (vx yy : Nat) : State :=
  (List.range 8).foldl (fun t c => if b.getLsbD (7 - c) then drawPixel t (vx + c) yy else t) s

/-- Draw the rows of a sprite, top to bottom, row `r` from the byte at `I + r` (R201, R202). -/
def drawRows (s : State) (vx vy n : Nat) : State :=
  (List.range n).foldl (fun t r => drawRow t (readByte t (effAddr t r)) vx (vy + r)) s

/-- The highest address a sprite of `n` rows is read from, if it has a row (R201). -/
def spriteTop (s : State) (n : Nat) : Nat := if n = 0 then 0 else effAddr s (n - 1)

/-- `DRW Vx, Vy, N`: the coordinates are latched and the bounds checked before `VF` is cleared (R160, R201). -/
def execDrw (x y : Reg) (n : BitVec 4) (s : State) : Result :=
  checkMem s (spriteTop s n.toNat)
    (advance (drawRows (setV s VF 0) (getV s x).toNat (getV s y).toNat n.toNat) 2)

end Sys2Proof.Machine
end

