-- ==== Sys2Proof/Machine/MemoryIndex.lean ====
section
/-! DEFINITION. The index-register and memory instructions (43_memory_index.md, R180 to R185). -/

namespace Sys2Proof.Machine

/-- `LD I, NNN` (R180). -/
def execLdI (nnn : BitVec 12) (s : State) : Result := .next (advance (setI s (zext12 nnn)) 2)

/-- `ADD I, Vx`: modulo 65536, no flag (R181). -/
def execAddI (x : Reg) (s : State) : Result := .next (advance (setI s (s.I + zext8 (getV s x))) 2)

/-- Store the three decimal digits of a value at I, I+1, I+2 (R182). -/
def storeBcd (s : State) (v : Byte) : State :=
  writeByte (writeByte (writeByte s (effAddr s 0) (hundreds v)) (effAddr s 1) (tens v)) (effAddr s 2) (ones v)

/-- `LD B, Vx` (R182). -/
def execLdB (x : Reg) (s : State) : Result :=
  checkMem s (effAddr s 2) (advance (storeBcd s (getV s x)) 2)

/-- Store the listed registers, register `i` at `I + i`, in the order of the list (R183). -/
def storeRegList (s : State) (l : List Reg) : State :=
  l.foldl (fun t i => writeByte t (effAddr t i.val) (getV t i)) s

/-- `LD [I], Vx`: registers 0 to x, ascending (R183). -/
def execStoreRegs (x : Reg) (s : State) : Result :=
  checkMem s (effAddr s x.val) (advance (storeRegList s (regsUpTo x)) 2)

/-- Load the listed registers, register `i` from `I + i`, in the order of the list (R184). -/
def loadRegList (s : State) (l : List Reg) : State :=
  l.foldl (fun t i => setV t i (readByte t (effAddr t i.val))) s

/-- `LD Vx, [I]`: registers 0 to x, ascending (R184). -/
def execLoadRegs (x : Reg) (s : State) : Result :=
  checkMem s (effAddr s x.val) (advance (loadRegList s (regsUpTo x)) 2)

end Sys2Proof.Machine
end

