-- ==== Sys2Proof/Machine/Random.lean ====
section
/-! DEFINITION. The random-number instruction (46_random.md, R210). -/

namespace Sys2Proof.Machine

/-- The random byte supplied to the next draw: a free value (R210, R242; log entry 1). -/
def nextRandom (s : State) : Byte := Config.randomByte s.rndCount

/-- `RND Vx, NN`: one byte is drawn (R210). -/
def execRnd (x : Reg) (nn : Byte) (s : State) : Result :=
  .next (advance (setV { s with rndCount := s.rndCount + 1 } x (nextRandom s &&& nn)) 2)

end Sys2Proof.Machine
end

