-- ==== Sys2Proof/Machine/TimersIO.lean ====
section
/-! DEFINITION. The timer, font and keypad instructions (44_timers_io.md, R190 to R197). -/

namespace Sys2Proof.Machine

/-- `LD Vx, DT` (R190). -/
def execLdFromDT (x : Reg) (s : State) : Result := .next (advance (setV s x s.DT) 2)

/-- `LD DT, Vx` (R191). -/
def execLdDT (x : Reg) (s : State) : Result := .next (advance { s with DT := getV s x } 2)

/-- `LD ST, Vx` (R192). -/
def execLdST (x : Reg) (s : State) : Result := .next (advance { s with ST := getV s x } 2)

/-- `LD F, Vx` (R193). -/
def execLdF (x : Reg) (s : State) : Result := .next (advance (setI s (glyphAddr (getV s x))) 2)

/-- `LD Vx, K`: with no key down the step stalls and `pc` stays (R124, R194). -/
def execLdKey (x : Reg) (s : State) : Result :=
  match lowestKey s with
  | none => .next s
  | some k => .next (advance (setV s x (keyByte k)) 2)

/-- `SKP Vx` (R195). -/
def execSkp (x : Reg) (s : State) : Result := checkKey s (getV s x) (fun k => skipIf s.keys[k] s)

/-- `SKNP Vx` (R196). -/
def execSknp (x : Reg) (s : State) : Result := checkKey s (getV s x) (fun k => skipIf (!s.keys[k]) s)

end Sys2Proof.Machine
end

