-- ==== Sys2Proof/Machine/Unknown.lean ====
section
/-! DEFINITION. The unknown opcode: a no-op that advances the program counter (R125). -/

namespace Sys2Proof.Machine

/-- The unknown opcode `w`: the diagnostic event and `pc + 2` (R125, R241; log entry 11). -/
def execUnknown (w : Word) (s : State) : Result := .next (advance (emit s (.unknownOpcode w)) 2)

end Sys2Proof.Machine
end

