-- ==== Sys2Proof/Machine/Cycle.lean ====
section
/-! DEFINITION. The phases of a step around the execute phase: halt check, fetch, timer tick (40_step_cycle.md,
R120 to R131), and where the step's instruction word lies. -/

namespace Sys2Proof.Machine

/-- The word at an address: two bytes, big-endian (R62, R121). -/
def fetchWord (s : State) (a : Nat) : Word := wordOfBytes (readByte s a) (readByte s (a + 1))

/-- A step starts with no event emitted (R34; log entry 2). -/
def beginStep (s : State) : State := { s with events := [] }

/-- The fetch phase's effect: `currentOpcode` holds the fetched word (R33, R121). -/
def latchOpcode (s : State) (w : Word) : State := { s with currentOpcode := w }

/-- A timer after a tick: one less, but never below 0 (R128). -/
def decTimer (t : Byte) : Byte := if t = 0 then 0 else t - 1

/-- The beep of a tick: emitted when the tick finds the sound timer at 1 (R129). -/
def beepIfDue (s : State) : State := if s.ST = 1 then emit s .beep else s

/-- The timer tick (R128, R129). -/
def tick (s : State) : State :=
  let t := beepIfDue s
  { t with DT := decTimer t.DT, ST := decTimer t.ST }

/-- The end of a step: the timers tick unless the execute phase raised a fault (R127, R128). -/
def finish : Result → Result
  | .next t => if halted t then .next t else .next (tick t)
  | .fault r => .fault r
  | .refused r => .refused r

/-- One step: halt check, fetch, execute, tick (R120, R121, R126). -/
def cycle (s : State) : Result :=
  let b := beginStep s
  if halted s then .next b
  else if Config.lastFetch < s.pc.toNat then .next (raise b (.fetchOutOfBounds s.pc))
  else
    let w := fetchWord s s.pc.toNat
    finish (exec (decodeWord w) (latchOpcode b w))

/-- The state `s` made ready to fetch: not halted, and with `pc` where a fetch succeeds. Where `s` is ready already it
is unchanged (log entry 9). -/
def readyToFetch (s : State) : State :=
  { s with fault := none, pc := if Config.lastFetch < s.pc.toNat then BitVec.ofNat 16 Config.progBase else s.pc }

/-- `s` with an instruction word stored at an address, high byte first (R62). -/
def storeWord (s : State) (a : Nat) (w : Word) : State := writeByte (writeByte s a (highByte w)) (a + 1) (lowByte w)

/-- `s` with a table word where `cycle` fetches its next instruction (log entry 9). -/
def placeTableWord (s : State) (nbits w : Nat) : State :=
  storeWord (readyToFetch s) (readyToFetch s).pc.toNat (tableWord nbits w)

end Sys2Proof.Machine
end

