-- ==== Sys2Proof/Machine/Step.lean ====
section
/-! DEFINITION. The step (R120), and the placing of a word for it to fetch. -/

namespace Sys2Proof.Machine

/-- One step of the core: the unit of execution and of time (R120). -/
def step (s : State) : Host.Outcome State Fault Refusal := cycle s

/-- `s` with the instruction of a table word stored where `step` fetches its next instruction (log entry 9). -/
def State.withFetchWord (s : State) (nbits w : Nat) : State := placeTableWord s nbits w

end Sys2Proof.Machine
end

