-- ==== Sys2Proof/Machine/HostOps.lean ====
section
/-! DEFINITION. The host's operations on the core between steps (60_exceptions.md R234 to R239,
70_reset_and_hazards.md R260 to R265), and a schedule of them. -/

namespace Sys2Proof.Machine

/-- `set_key(k)` and `clear_key(k)`: a key index above 15 has no effect (R236, R237). -/
def putKey (k : Nat) (down : Bool) (s : State) : State :=
  if h : k < 16 then { s with keys := s.keys.set k down } else s

/-- Does an image fit the program region (R262, R263)? -/
def imageFits (bytes : List Byte) : Bool := bytes.length ≤ Config.progMax

/-- `load_program(bytes)`: the image goes verbatim to 0x200 and up and nothing else changes (R262); an image that is
too long is rejected with no change (R263). -/
def loadProgram (bytes : List Byte) (s : State) : State :=
  if imageFits bytes then { s with memory := Memory.writeList s.memory Config.progBase bytes } else s

/-- `drain_pixel_events()` empties the queue (R239). -/
def drainQueue (s : State) : State := { s with pixelChangeQueue := [] }

/-- `ack_redraw()` clears the redraw flag (R239). -/
def ackRedraw (s : State) : State := { s with redrawRequested := false }

/-- The host's operations that act on the core (R234). Reads of the registers change nothing and need no operation
here: they are the fields of `State` (R245). -/
inductive HostOp where
  | step
  | reset
  | loadProgram (bytes : List Byte)
  | setKey (k : Nat)
  | clearKey (k : Nat)
  | getPixel (xx : Fin 64) (yy : Fin 32)
  | drainPixelEvents
  | ackRedraw
  deriving DecidableEq, Repr

/-- What an operation tells the host (R234, R238, R239, R263). -/
inductive HostReply where
  | none
  | loaded
  | rejected
  | pixel (v : Bool)
  | records (l : List PixelRecord)
  deriving DecidableEq, Repr

/-- The reply of an operation on the core (R234). -/
def hostReply (op : HostOp) (s : State) : HostReply :=
  match op with
  | .loadProgram bytes => if imageFits bytes then .loaded else .rejected
  | .getPixel xx yy => .pixel (pixelAt s xx yy)
  | .drainPixelEvents => .records s.pixelChangeQueue
  | _ => .none

/-- The effect of an operation on the core; on a halted core every one but `step` has its normal effect (R234). -/
def hostEffect (op : HostOp) (s : State) : Result :=
  match op with
  | .step => step s
  | .reset => .next (resetCore s)
  | .loadProgram bytes => .next (loadProgram bytes s)
  | .setKey k => .next (putKey k true s)
  | .clearKey k => .next (putKey k false s)
  | .getPixel _ _ => .next s
  | .drainPixelEvents => .next (drainQueue s)
  | .ackRedraw => .next (ackRedraw s)

/-- A schedule of whole operations, one after the other: the open parameters STEP_SCHEDULE and KEYS_IN (R7, R234). -/
def runSchedule : List HostOp → State → Result
  | [], s => .next s
  | op :: ops, s =>
    match hostEffect op s with
    | .next t => runSchedule ops t
    | .fault r => .fault r
    | .refused r => .refused r

end Sys2Proof.Machine
end

