-- ==== Sys2Proof/Safety.lean ====
section
/-! DEFINITION. What claims are stated in terms of: the machine's invariant (R42, R220 to R226, log entry 4), a step that is safe, and the spec's
suggested end of a run (R133). -/

namespace Sys2Proof.Machine

/-- Every live stack entry is an address a fetch succeeded at (R42). -/
abbrev State.liveStackOk (s : State) : Prop := ∀ k : Fin 16, k.val < s.sp.val → s.stack[k].toNat ≤ Config.lastFetch

/-- The fault register records a fault the machine's state bears out (R220 to R226). -/
def State.faultOk (s : State) : Bool :=
  match s.fault with
  | none => true
  | some (.fetchOutOfBounds p) => p == s.pc && decide (Config.lastFetch < p.toNat)
  | some (.memOutOfBounds a) => decide (Config.memSize ≤ a ∧ a ≤ 65550)
  | some (.stackOverflow p) => p == s.pc && s.sp == 16
  | some (.stackUnderflow p) => p == s.pc && s.sp == 0
  | some (.keyIndexOutOfRange v) => decide (15 < v.toNat)

/-- The machine's invariant: the bound on live stack entries of R42, the memory's canonical form (the form is the
model's own, log entry 4), and the fault register's record (R220 to R226). The other bounds of R42 (registers, timers,
`sp`, queue records) are the types of the fields. -/
abbrev State.Inv (s : State) : Prop := Memory.wf s.memory = true ∧ s.liveStackOk ∧ s.faultOk = true

/-- A state no fault has halted (R37). -/
abbrev State.safe (s : State) : Prop := s.fault = none

/-- The spec's suggested END_OF_RUN: `pc` at a `JP` to itself, both timers at 0 (R133; log entry 13). -/
def State.endOfRun (s : State) : Bool :=
  !halted s && decide (s.pc.toNat ≤ Config.lastFetch) && s.DT == 0 && s.ST == 0 &&
    (decodeWord (fetchWord s s.pc.toNat) == .jp (s.pc.truncate 12))

end Sys2Proof.Machine
end

