-- ==== Sys2Proof/WellFormed.lean ====
section
/-! DEFINITION. The one check the types of `Instr` leave open: an unknown opcode carries an unknown word. -/

namespace Sys2Proof

/-- Every operand field is as wide as its place in the word (R91, R92), so the only check left is that the word of
an unknown opcode selects no defined instruction (R101). -/
def Instr.wf : Instr → Bool
  | .unknown w => isUnknownWord w
  | _ => true

end Sys2Proof
end

