-- ==== Sys2Proof/Certificates/Slice0/Obligations.lean ====
section
/-! DEFINITION. The statements for the provers, from the spec's numbered rules, and the few words they are stated in. -/

namespace Sys2Proof.Claims

open Sys2Proof.Machine

/-! ### Words the statements use -/

/-- `x = w[11:8]` (R9). -/
def xOf (w : Word) : Reg := Fin.ofNat 16 (w.toNat / 256)

/-- `y = w[7:4]` (R9). -/
def yOf (w : Word) : Reg := Fin.ofNat 16 (w.toNat / 16)

/-- `n = w[3:0]` (R9). -/
def nOf (w : Word) : BitVec 4 := BitVec.ofNat 4 w.toNat

/-- `nn = w[7:0]` (R9). -/
def nnOf (w : Word) : Byte := BitVec.ofNat 8 w.toNat

/-- `nnn = w[11:0]` (R9). -/
def nnnOf (w : Word) : BitVec 12 := BitVec.ofNat 12 w.toNat

/-- Every word that selects the row `mask`, `bits` of the opcode map decodes to the instruction `f` reads from it. -/
def decodesAs (mask bits : Word) (f : Word → Instr) : Prop := ∀ w : Word, w &&& mask = bits → decodeWord w = f w

/-- `pc + k`, modulo 65536 (R24). -/
def pcPlus (s : State) (k : Nat) : Word := BitVec.ofNat 16 (s.pc.toNat + k)

/-- The instruction a step from `s` fetches and decodes (R121, R122). -/
def fetched (s : State) : Instr := decodeWord (fetchWord s s.pc.toNat)

/-- The instruction completes in every state: `V[x]` gets the value `result`, a natural number computed from the state
before, `pc` advances by 2, and nothing else changes, no other register and no other field. -/
def writesOnly (i : Instr) (x : Reg) (result : State → Nat) : Prop :=
  ∀ s, ∃ t, exec i s = .next t ∧ (getV t x).toNat = result s ∧ (∀ r, r ≠ x → getV t r = getV s r) ∧
    t = { s with V := t.V, pc := pcPlus s 2 }

/-- The instruction completes in every state: `V[x]` gets `result`; when x is not 15, `VF` gets `flag` (when x is 15 the
result stays in `VF`); `pc` advances by 2, and nothing else changes. -/
def writesFlagAndResult (i : Instr) (x : Reg) (flag result : State → Nat) : Prop :=
  ∀ s, ∃ t, exec i s = .next t ∧ (getV t x).toNat = result s ∧ (x ≠ VF → (getV t VF).toNat = flag s) ∧
    (∀ r, r ≠ x → r ≠ VF → getV t r = getV s r) ∧ t = { s with V := t.V, pc := pcPlus s 2 }

/-- Which registers an instruction may write: the "writes" column of the table of R22. -/
def writesReg : Instr → Reg → Bool
  | .ldImm x _, r | .addImm x _, r | .ldReg x _, r | .or x _, r | .and x _, r | .xor x _, r => r == x
  | .addReg x _, r | .sub x _, r | .shr x, r | .subn x _, r | .shl x, r => r == x || r == VF
  | .rnd x _, r | .ldFromDT x, r | .ldKey x, r => r == x
  | .drw _ _ _, r => r == VF
  | .loadRegs x, r => decide (r ≤ x)
  | _, _ => false

/-- The addresses an instruction stores a byte to: the effective addresses `I + k` its meaning computes (R64). -/
def storeAddrs : Instr → State → List Nat
  | .ldB _, s => [effAddr s 0, effAddr s 1, effAddr s 2]
  | .storeRegs x, s => (regsUpTo x).map (fun r => effAddr s r.val)
  | _, _ => []

/-- The fault of a transfer whose highest address is `a`, if it has one (R222). -/
def memFault (a : Nat) : Option CoreFault := if 4095 < a then some (.memOutOfBounds a) else none

/-- The fault a step from `s` raises, if any: the causes and the recorded information of the table of R220; a halted
core keeps its fault (R229). -/
def faultOf (s : State) : Option CoreFault :=
  if s.fault.isSome then s.fault
  else if 4094 < s.pc.toNat then some (.fetchOutOfBounds s.pc)
  else
    match fetched s with
    | .call _ => if s.sp.val = 16 then some (.stackOverflow s.pc) else none
    | .ret => if s.sp.val = 0 then some (.stackUnderflow s.pc) else none
    | .ldB _ => memFault (s.I.toNat + 2)
    | .storeRegs x => memFault (s.I.toNat + x.val)
    | .loadRegs x => memFault (s.I.toNat + x.val)
    | .drw _ _ n => if n.toNat = 0 then none else memFault (s.I.toNat + n.toNat - 1)
    | .skp x => if 15 < (getV s x).toNat then some (.keyIndexOutOfRange (getV s x)) else none
    | .sknp x => if 15 < (getV s x).toNat then some (.keyIndexOutOfRange (getV s x)) else none
    | _ => none

/-- Does a sprite of `n` rows drawn at column `vx` and row `vy` have a set bit at this pixel (R201)? Row `r` of the
sprite is the byte at `I + r`, its most significant bit leftmost. -/
def spriteBit (s : State) (vx vy n : Nat) (xx : Fin 64) (yy : Fin 32) : Bool :=
  decide (vx ≤ xx.val ∧ xx.val < vx + 8 ∧ vy ≤ yy.val ∧ yy.val < vy + n) &&
    (readByte s (s.I.toNat + (yy.val - vy))).getLsbD (7 - (xx.val - vx))

/-- The record of one flip of a sprite's pixel (r, c), if its bit is set and it is on the screen: the new value is the
opposite of the pixel before the draw (R201, R203). -/
def flipAt (s : State) (vx vy r c : Nat) : Option PixelRecord :=
  if h : vx + c < 64 ∧ vy + r < 32 then
    if (readByte s (s.I.toNat + r)).getLsbD (7 - c) then
      some ⟨⟨vx + c, h.1⟩, ⟨vy + r, h.2⟩, !pixelAt s ⟨vx + c, h.1⟩ ⟨vy + r, h.2⟩⟩
    else none
  else none

/-- The records of a draw: rows top to bottom, within a row left to right (R202). -/
def flips (s : State) (vx vy n : Nat) : List PixelRecord :=
  (List.range n).flatMap (fun r => (List.range 8).filterMap (fun c => flipAt s vx vy r c))

/-- A draw of `n` rows stays inside memory (R201). -/
def spriteInMemory (s : State) (n : BitVec 4) : Prop := n.toNat = 0 ∨ s.I.toNat + n.toNat - 1 ≤ 4095

/-- The instructions whose word has no bit the decoder ignores, or that keep the whole word (R103). -/
def noIgnoredBits : Instr → Bool
  | .cls | .ret | .seReg _ _ | .sneReg _ _ | .shr _ | .shl _ => false
  | .ldFromDT _ | .ldKey _ | .ldST _ | .addI _ | .ldF _ | .ldB _ => false
  | _ => true

/-- The operands of an instruction are the fields of its word (R91, R92). -/
def operandsFrom (w : Word) : Instr → Bool
  | .jp nnn | .call nnn | .ldI nnn | .jpV0 nnn => nnn == nnnOf w
  | .seImm x nn | .sneImm x nn | .ldImm x nn | .addImm x nn | .rnd x nn => x == xOf w && nn == nnOf w
  | .seReg x y | .sneReg x y | .ldReg x y | .or x y | .and x y | .xor x y | .addReg x y | .sub x y | .subn x y =>
    x == xOf w && y == yOf w
  | .drw x y n => x == xOf w && y == yOf w && n == nOf w
  | .shr x | .shl x | .skp x | .sknp x | .ldFromDT x | .ldKey x | .ldDT x | .ldST x | .addI x | .ldF x | .ldB x => x == xOf w
  | .storeRegs x | .loadRegs x => x == xOf w
  | .cls | .ret => true
  | .unknown v => v == w

end Sys2Proof.Claims

open Sys2Proof Sys2Proof.Machine Sys2Proof.Claims

/-! ### The step -/

/-- When the bytes at `pc` decode to an instruction, a step of a core that is not halted is that instruction executed
with `currentOpcode` holding the word (big-endian) and no event emitted yet, and then, unless it raised a fault, the
timer tick (R120 to R123, R127; that the tick comes last and is skipped by a fault is the spec's decisions D12 and D15;
the events field is the model's, log entry 2). -/
def Obligations.StepRunsDecodedInstruction : Prop :=
  ∀ (s : State) (i : Instr) (rest : List Byte), s.fault = none → s.pc.toNat ≤ 4094 →
    decode [readByte s s.pc.toNat, readByte s (s.pc.toNat + 1)] = .ok (i, rest) →
    step s =
      match exec i { s with
          currentOpcode :=
            BitVec.ofNat 16 ((readByte s s.pc.toNat).toNat * 256 + (readByte s (s.pc.toNat + 1)).toNat),
          events := [] } with
      | .next t => if t.fault.isNone then .next (tick t) else .next t
      | .fault r => .fault r
      | .refused r => .refused r

/-- A step that begins with `pc` above 4094 raises FetchOutOfBounds(pc) and changes nothing else, in particular not
`currentOpcode` and not the timers; and no step that begins with `pc` at most 4094 raises that fault, whatever `pc` its
instruction leaves: the fault belongs to the following step (R221). -/
def Obligations.FetchPastEndFaults : Prop :=
  (∀ s : State, s.fault = none → 4094 < s.pc.toNat →
    step s = .next { s with fault := some (.fetchOutOfBounds s.pc), events := [] }) ∧
  ∀ (s u : State) (p : Word), s.fault = none → s.pc.toNat ≤ 4094 → step s = .next u →
    u.fault ≠ some (.fetchOutOfBounds p)

/-- A step of a halted core changes nothing and emits nothing (R126, the spec's decision D15). -/
def Obligations.HaltedStepDoesNothing : Prop :=
  ∀ s : State, s.fault ≠ none → step s = .next { s with events := [] }

/-- The tick takes each timer down by one but never below 0, and emits one beep exactly when it finds the sound timer
at 1 (R128, R129). -/
def Obligations.TickCountsDownAndBeeps : Prop :=
  ∀ s : State, tick s = { s with
    DT := BitVec.ofNat 8 (s.DT.toNat - 1), ST := BitVec.ofNat 8 (s.ST.toNat - 1),
    events := if s.ST.toNat = 1 then s.events ++ [.beep] else s.events }

/-- In every step that neither faults nor finds the core halted, whatever the instruction, each timer ends one below
what it held, or one below the register loaded into it by LD DT or LD ST in this step, and never below 0; and the beep
is emitted exactly when the sound timer, after that load, was 1 (R128 to R130, R191, R192; the order is decision D12). -/
def Obligations.StepTicksBothTimers : Prop :=
  ∀ s u : State, s.fault = none → step s = .next u → u.fault = none →
    (match fetched s with
      | .ldDT x => u.DT.toNat = (getV s x).toNat - 1
      | _ => u.DT.toNat = s.DT.toNat - 1) ∧
    (match fetched s with
      | .ldST x => u.ST.toNat = (getV s x).toNat - 1 ∧ (Event.beep ∈ u.events ↔ (getV s x).toNat = 1)
      | _ => u.ST.toNat = s.ST.toNat - 1 ∧ (Event.beep ∈ u.events ↔ s.ST.toNat = 1))

/-- Every instruction in every state, and every step, answers a next state: nothing is refused and no step ends outside
the machine's states (R101, R102, R224; the model's form of a fault, log entry 3). -/
def Obligations.EveryStepAnswersNext : Prop :=
  (∀ (i : Instr) (s : State), ∃ t, exec i s = .next t) ∧ ∀ s : State, ∃ u, step s = .next u

/-- The fault register after a step is exactly what the table of R220 says: the cause and the recorded information of
each of the five faults, and no other instruction or condition raises one (the register's form is decision D15, the
key-index fault D14). -/
def Obligations.FaultsHaveExactlyTheirCauses : Prop :=
  ∀ s u : State, step s = .next u → u.fault = faultOf s

/-- A step that raises a fault changes only the fault register and, when it faults after its fetch, `currentOpcode`,
which then holds the faulting word; it emits nothing and does not tick (R127, R224, the spec's decisions D10 and D15). -/
def Obligations.FaultsArePrecise : Prop :=
  ∀ s u : State, s.fault = none → step s = .next u → u.fault ≠ none →
    u = { s with
      fault := u.fault, events := [],
      currentOpcode := if 4094 < s.pc.toNat then s.currentOpcode else fetchWord s s.pc.toNat }

/-- The events of a step: the pixel records this step appends to the queue, at most 120 of them, or one unknown opcode,
and then at most one beep (R34, R36, R131). -/
def Obligations.EventsOfAStepAreOrdered : Prop :=
  ∀ s u : State, step s = .next u →
    ∃ (recs : List PixelRecord) (unk beeps : List Event),
      u.events = recs.map Event.pixel ++ unk ++ beeps ∧ u.pixelChangeQueue = s.pixelChangeQueue ++ recs ∧
      recs.length ≤ 120 ∧ (unk = [] ∨ (recs = [] ∧ ∃ w, unk = [.unknownOpcode w])) ∧ (beeps = [] ∨ beeps = [.beep])

/-- A step that does not fault leaves `pc` at most 4350, when every live stack entry is an address a fetch succeeded
at: no sum of R24 wraps at 65536 (R24). -/
def Obligations.PcStaysBelow4351 : Prop :=
  ∀ s u : State, s.fault = none → s.liveStackOk → step s = .next u → u.fault = none → u.pc.toNat ≤ 4350

/-- A byte stored at any address is what the next fetch reads there: the fetched word is made of the stored byte where
`pc` or `pc + 1` is its address, and of the bytes before elsewhere (R74). -/
def Obligations.FetchSeesEveryStore : Prop :=
  ∀ (s u : State) (a : Nat) (v : Byte), s.fault = none → s.pc.toNat ≤ 4094 → step (writeByte s a v) = .next u →
    u.currentOpcode.toNat =
      (if a = s.pc.toNat then v else readByte s s.pc.toNat).toNat * 256 +
        (if a = s.pc.toNat + 1 then v else readByte s (s.pc.toNat + 1)).toNat

/-- No step reads the pixel-change queue or the redraw flag: with other contents in the two, a step gives the same state
in every other field (R35, R36, R239). -/
def Obligations.QueueAndRedrawFlagUnobservable : Prop :=
  ∀ (s u : State) (q : List PixelRecord) (b : Bool), step s = .next u →
    ∃ u', step { s with pixelChangeQueue := q, redrawRequested := b } = .next u' ∧
      u = { u' with pixelChangeQueue := u.pixelChangeQueue, redrawRequested := u.redrawRequested }

/-- At a JP to itself with both timers at 0 a step changes nothing but `currentOpcode`, which holds the jump's word, and
the step is again at its end of run (R133; the predicate is the spec's suggestion, decision D19, log entry 13). -/
def Obligations.EndOfRunIsAFixedPoint : Prop :=
  ∀ s : State, s.endOfRun = true →
    ∃ u, step s = .next u ∧ u = { s with currentOpcode := fetchWord s s.pc.toNat, events := [] } ∧ u.endOfRun = true

/-! ### Reset, invariants and the host's operations -/

/-- The machine's invariant holds at reset: every live stack entry at most 4094 (R42), memory inside 0 to 4095 and in
canonical form (the form is the model's own, log entry 4), and a fault register whose record the state bears out (the
causes and records of R220 to R226). -/
def Obligations.ResetMeetsInvariant : Prop := State.reset.Inv

/-- Every step keeps the machine's invariant: every live stack entry at most 4094 (R42), memory inside 0 to 4095 and in
canonical form (the form is the model's own, log entry 4), and a fault register whose record the state bears out (the
causes and records of R220 to R226). -/
def Obligations.StepKeepsInvariant : Prop := ∀ s u : State, s.Inv → step s = .next u → u.Inv

/-- Every schedule of whole host operations and steps (R234) runs to its end from every state that meets the machine's
invariant, and keeps it: live stack entries at most 4094 (R42), the canonical memory (the form is the model's own, log
entry 4) and the fault register's record (R220 to R226). -/
def Obligations.EveryScheduleKeepsInvariant : Prop :=
  ∀ (ops : List HostOp) (s : State), s.Inv → ∃ u, runSchedule ops s = .next u ∧ u.Inv

/-- The state after reset: the font in bytes 0 to 79, zero above, `pc` 0x200 and everything else 0, off, empty or none;
and the host's reset gives it from any state, halted or not, but for the model's count of random draws, which goes on
(R41, R229, R260; `pc` after reset is decision D16, the font bytes D20, log entry 7; the count log entry 10). -/
def Obligations.ResetLeavesTheTable : Prop :=
  (∀ s : State, hostEffect .reset s = .next { State.reset with rndCount := s.rndCount }) ∧
  (∀ a, readByte State.reset a = if a < 80 then font.getD a 0 else 0) ∧ (∀ r, getV State.reset r = 0) ∧
    State.reset.I = 0 ∧ State.reset.pc = 0x200 ∧ (∀ k : Fin 16, State.reset.stack[k] = 0) ∧ State.reset.sp = 0 ∧
    State.reset.DT = 0 ∧ State.reset.ST = 0 ∧ (∀ xx yy, pixelAt State.reset xx yy = false) ∧
    (∀ k : Key, State.reset.keys[k] = false) ∧ State.reset.currentOpcode = 0 ∧ State.reset.redrawRequested = false ∧
    State.reset.pixelChangeQueue = [] ∧ State.reset.fault = none ∧ State.reset.events = []

/-- set_key and clear_key write the one key and nothing else and are idempotent; an index above 15 has no effect
(R236, R237 with decision D23). -/
def Obligations.HostWritesOneKey : Prop :=
  (∀ (k : Key) (s : State), ∃ t, hostEffect (.setKey k.val) s = .next t ∧ t.keys[k] = true ∧
    (∀ j : Key, j ≠ k → t.keys[j] = s.keys[j]) ∧ t = { s with keys := t.keys } ∧
    hostEffect (.setKey k.val) t = .next t) ∧
  (∀ (k : Key) (s : State), ∃ t, hostEffect (.clearKey k.val) s = .next t ∧ t.keys[k] = false ∧
    (∀ j : Key, j ≠ k → t.keys[j] = s.keys[j]) ∧ t = { s with keys := t.keys } ∧
    hostEffect (.clearKey k.val) t = .next t) ∧
  (∀ (k : Nat) (s : State), 15 < k → hostEffect (.setKey k) s = .next s ∧ hostEffect (.clearKey k) s = .next s)

/-- load_program of at most 3584 bytes puts the image at 0x200 and up and changes nothing else, not the bytes beyond
it (R262, the spec's decision D17). -/
def Obligations.LoadProgramCopiesImage : Prop :=
  ∀ (bytes : List Byte) (s : State), bytes.length ≤ 3584 →
    hostReply (.loadProgram bytes) s = .loaded ∧
    ∃ t, hostEffect (.loadProgram bytes) s = .next t ∧
      (∀ i, (h : i < bytes.length) → readByte t (0x200 + i) = bytes[i]) ∧
      (∀ a, a < 0x200 ∨ 0x200 + bytes.length ≤ a → readByte t a = readByte s a) ∧ t = { s with memory := t.memory }

/-- load_program of more than 3584 bytes changes nothing at all, tells the host, and the core goes on being stepped as
if it had not been called (R263). -/
def Obligations.LoadProgramRejectsOversize : Prop :=
  ∀ (bytes : List Byte) (s : State), 3584 < bytes.length →
    hostReply (.loadProgram bytes) s = .rejected ∧ hostEffect (.loadProgram bytes) s = .next s ∧
    runSchedule [.loadProgram bytes, .step] s = step s

/-- get_pixel reads a pixel and changes nothing; drain_pixel_events gives the queue in its order and empties it;
ack_redraw clears the flag; none changes anything else (R238, R239). -/
def Obligations.DisplayOperations : Prop :=
  (∀ (xx : Fin 64) (yy : Fin 32) (s : State),
    hostReply (.getPixel xx yy) s = .pixel s.screen[yy][xx] ∧ hostEffect (.getPixel xx yy) s = .next s) ∧
  (∀ s : State, hostReply .drainPixelEvents s = .records s.pixelChangeQueue ∧
    hostEffect .drainPixelEvents s = .next { s with pixelChangeQueue := [] }) ∧
  ∀ s : State, hostEffect .ackRedraw s = .next { s with redrawRequested := false }

/-- After reset and load_program of an image of two bytes or more, in any state, the first step executes the word
image[0] * 256 + image[1] at `pc` 0x200 (R264). -/
def Obligations.BootRunsTheFirstWord : Prop :=
  ∀ (b0 b1 : Byte) (rest : List Byte) (s : State), rest.length ≤ 3582 →
    ∃ t, runSchedule [.reset, .loadProgram (b0 :: b1 :: rest)] s = .next t ∧ t.pc = 0x200 ∧ t.fault = none ∧
      step t = finish (exec (decodeWord (BitVec.ofNat 16 (b0.toNat * 256 + b1.toNat)))
        { t with currentOpcode := BitVec.ofNat 16 (b0.toNat * 256 + b1.toNat), events := [] })

/-! ### Encoding -/

/-- For every well-formed instruction, with every operand at every value, the decoder reads the instruction back from
its canonical word and from its two bytes with any bytes after them (R90, R91, R92, R100). -/
def Obligations.DecodeOfEncode : Prop :=
  ∀ (i : Instr) (rest : List Byte), i.wf = true →
    decodeWord (encode i) = i ∧ decode (encodeBytes i ++ rest) = .ok (i, rest)

/-- Every word decodes to the first row of the opcode map it selects, or to the unknown opcode when it selects none, and
the instruction's operands are the word's fields (R9, R92, R99, R101; the map's opcode numbers are from general
knowledge and its selectors are decisions D1 to D5, log entry 6). -/
def Obligations.DecodeFollowsOpcodeMap : Prop :=
  ∀ w : Word, (decodeWord w).rowIndex = opcodeMap.findIdx (fun r => r.selects w) ∧ operandsFrom w (decodeWord w) = true

/-- No word selects two rows of the opcode map (R99). -/
def Obligations.OpcodeRowsAreDisjoint : Prop :=
  ∀ (w : Word) (j k : Nat) (hj : j < opcodeMap.length) (hk : k < opcodeMap.length),
    opcodeMap[j].selects w = true → opcodeMap[k].selects w = true → j = k

/-- The unknown opcodes are exactly the words of R101's table, and every word decodes to a well-formed instruction
(R101, R102). -/
def Obligations.UnknownWordsAreThoseListed : Prop :=
  ∀ w : Word, (decodeWord w = .unknown w ↔ isUnknownWord w = true) ∧ (decodeWord w).wf = true

/-- Where a word has no ignored bits, it is the canonical word of the instruction it decodes to (R91, R103). -/
def Obligations.EncodeOfDecode : Prop :=
  ∀ w : Word, noIgnoredBits (decodeWord w) = true → encode (decodeWord w) = w

/-- A word of each family, written out from the spec's encodings and examples, decodes to what the spec says it is. -/
def Obligations.SpecWordsDecode : Prop :=
  decodeWord 0x0000 = .cls ∧ decodeWord 0x00E0 = .cls ∧ decodeWord 0x00EE = .ret ∧ decodeWord 0x1234 = .jp 0x234 ∧
  decodeWord 0x2210 = .call 0x210 ∧ decodeWord 0x332A = .seImm 3 0x2A ∧ decodeWord 0x6005 = .ldImm 0 5 ∧
  decodeWord 0x8014 = .addReg 0 1 ∧ decodeWord 0x9120 = .sneReg 1 2 ∧ decodeWord 0xA300 = .ldI 0x300 ∧
  decodeWord 0xC30F = .rnd 3 0x0F ∧ decodeWord 0xD125 = .drw 1 2 5 ∧ decodeWord 0xE19E = .skp 1 ∧
  decodeWord 0xF307 = .ldFromDT 3 ∧ decodeWord 0xF033 = .ldB 0 ∧ decodeWord 0xF265 = .loadRegs 2 ∧
  decodeWord 0x812F = .unknown 0x812F

/-! ### Control flow -/

/-- JP NNN (R141): 1NNN; `pc` becomes NNN, any value 0 to 4095, and nothing else changes. -/
def Obligations.JumpSetsPc : Prop :=
  decodesAs 0xF000 0x1000 (fun w => .jp (nnnOf w)) ∧
  ∀ (nnn : BitVec 12) (s : State), exec (.jp nnn) s = .next { s with pc := BitVec.ofNat 16 nnn.toNat }

/-- CALL NNN (R142, R223): 2NNN; with fewer than 16 entries on the stack, the address of the CALL itself goes to entry
`sp`, `sp` goes up by one and `pc` becomes NNN; with 16, the fault StackOverflow(pc) and nothing else changes. -/
def Obligations.CallPushesItsOwnAddress : Prop :=
  decodesAs 0xF000 0x2000 (fun w => .call (nnnOf w)) ∧
  (∀ (nnn : BitVec 12) (s : State) (h : s.sp.val < 16), exec (.call nnn) s =
    .next { s with stack := s.stack.set s.sp.val s.pc, sp := ⟨s.sp.val + 1, by omega⟩,
                   pc := BitVec.ofNat 16 nnn.toNat }) ∧
  ∀ (nnn : BitVec 12) (s : State), s.sp.val = 16 →
    exec (.call nnn) s = .next { s with fault := some (.stackOverflow s.pc) }

/-- RET (R143, R225): any group-0 word with low nibble 0xE; with an entry on the stack, `sp` goes down by one, `pc`
becomes the popped entry plus 2, and the entry stays where it is; with none, the fault StackUnderflow(pc) and nothing
else changes. -/
def Obligations.ReturnPopsAndAddsTwo : Prop :=
  decodesAs 0xF00F 0x000E (fun _ => .ret) ∧
  (∀ (s : State) (h : 0 < s.sp.val), exec .ret s =
    .next { s with sp := ⟨s.sp.val - 1, by omega⟩,
                   pc := BitVec.ofNat 16 ((s.stack[s.sp.val - 1]'(by omega)).toNat + 2) }) ∧
  ∀ s : State, s.sp.val = 0 → exec .ret s = .next { s with fault := some (.stackUnderflow s.pc) }

/-- CALL and then RET: `pc` is the instruction after the CALL, `sp` is what it was, every entry that was live is
unchanged, and nothing else has changed (R142, R143; the source's round-trip property, T7). -/
def Obligations.CallThenReturnRoundTrip : Prop :=
  ∀ (nnn : BitVec 12) (s : State), s.sp.val < 16 →
    ∃ t u, exec (.call nnn) s = .next t ∧ exec .ret t = .next u ∧ u = { s with stack := u.stack, pc := pcPlus s 2 } ∧
      ∀ k : Fin 16, k.val < s.sp.val → u.stack[k] = s.stack[k]

/-- SE Vx, NN and SNE Vx, NN (R144, R145): 3XNN and 4XNN; `pc` advances by 4 when the register equals (differs from) the
immediate, else by 2, and nothing else changes. -/
def Obligations.SkipsOnImmediate : Prop :=
  decodesAs 0xF000 0x3000 (fun w => .seImm (xOf w) (nnOf w)) ∧
  decodesAs 0xF000 0x4000 (fun w => .sneImm (xOf w) (nnOf w)) ∧
  (∀ (x : Reg) (nn : Byte) (s : State), exec (.seImm x nn) s =
    .next { s with pc := pcPlus s (if (getV s x).toNat = nn.toNat then 4 else 2) }) ∧
  ∀ (x : Reg) (nn : Byte) (s : State), exec (.sneImm x nn) s =
    .next { s with pc := pcPlus s (if (getV s x).toNat ≠ nn.toNat then 4 else 2) }

/-- SE Vx, Vy and SNE Vx, Vy (R146, R147): 5XYn and 9XYn for every n; `pc` advances by 4 when the registers are equal
(differ), else by 2, and nothing else changes. -/
def Obligations.SkipsOnRegisters : Prop :=
  decodesAs 0xF000 0x5000 (fun w => .seReg (xOf w) (yOf w)) ∧
  decodesAs 0xF000 0x9000 (fun w => .sneReg (xOf w) (yOf w)) ∧
  (∀ (x y : Reg) (s : State), exec (.seReg x y) s =
    .next { s with pc := pcPlus s (if (getV s x).toNat = (getV s y).toNat then 4 else 2) }) ∧
  ∀ (x y : Reg) (s : State), exec (.sneReg x y) s =
    .next { s with pc := pcPlus s (if (getV s x).toNat ≠ (getV s y).toNat then 4 else 2) }

/-- JP V0, NNN: BNNN; `pc` becomes NNN plus V0, never reduced modulo 4096, and nothing else changes (R148; the spec gives
this instruction by its decision D5, from general knowledge). -/
def Obligations.JumpPlusV0 : Prop :=
  decodesAs 0xF000 0xB000 (fun w => .jpV0 (nnnOf w)) ∧
  ∀ (nnn : BitVec 12) (s : State), ∃ t, exec (.jpV0 nnn) s = .next t ∧
    t.pc.toNat = nnn.toNat + (getV s 0).toNat ∧ t = { s with pc := t.pc }

/-! ### Arithmetic and logic -/

/-- LD Vx, NN (R163): 6XNN; `V[x]` becomes NN for every x, 15 included. -/
def Obligations.LoadImmediate : Prop :=
  decodesAs 0xF000 0x6000 (fun w => .ldImm (xOf w) (nnOf w)) ∧
  ∀ (x : Reg) (nn : Byte), writesOnly (.ldImm x nn) x (fun _ => nn.toNat)

/-- ADD Vx, NN (R164): 7XNN; the sum modulo 256, `VF` not written even when the sum exceeds 255. -/
def Obligations.AddImmediateWrapsWithoutFlag : Prop :=
  decodesAs 0xF000 0x7000 (fun w => .addImm (xOf w) (nnOf w)) ∧
  ∀ (x : Reg) (nn : Byte), writesOnly (.addImm x nn) x (fun s => ((getV s x).toNat + nn.toNat) % 256)

/-- LD Vx, Vy; OR; AND; XOR (R165 to R168): 8XY0 to 8XY3; the result in `V[x]`, `VF` not written as a side effect. -/
def Obligations.CopyAndBitwise : Prop :=
  decodesAs 0xF00F 0x8000 (fun w => .ldReg (xOf w) (yOf w)) ∧ decodesAs 0xF00F 0x8001 (fun w => .or (xOf w) (yOf w)) ∧
  decodesAs 0xF00F 0x8002 (fun w => .and (xOf w) (yOf w)) ∧ decodesAs 0xF00F 0x8003 (fun w => .xor (xOf w) (yOf w)) ∧
  ∀ x y : Reg, writesOnly (.ldReg x y) x (fun s => (getV s y).toNat) ∧
    writesOnly (.or x y) x (fun s => (getV s x).toNat ||| (getV s y).toNat) ∧
    writesOnly (.and x y) x (fun s => (getV s x).toNat &&& (getV s y).toNat) ∧
    writesOnly (.xor x y) x (fun s => (getV s x).toNat ^^^ (getV s y).toNat)

/-- ADD Vx, Vy (R169): 8XY4; the sum modulo 256 in `V[x]`, `VF` = 1 iff the sum exceeds 255; operands are read before
either write, so y = 15 adds the old `VF`; with x = 15 the result stays. -/
def Obligations.AddWithCarry : Prop :=
  decodesAs 0xF00F 0x8004 (fun w => .addReg (xOf w) (yOf w)) ∧
  ∀ x y : Reg, writesFlagAndResult (.addReg x y) x
    (fun s => if 255 < (getV s x).toNat + (getV s y).toNat then 1 else 0)
    (fun s => ((getV s x).toNat + (getV s y).toNat) % 256)

/-- SUB Vx, Vy (R170): 8XY5; the difference modulo 256 in `V[x]`, `VF` = 0 iff `V[y] > V[x]`; with x = 15 the difference
stays. -/
def Obligations.SubtractWithNotBorrow : Prop :=
  decodesAs 0xF00F 0x8005 (fun w => .sub (xOf w) (yOf w)) ∧
  ∀ x y : Reg, writesFlagAndResult (.sub x y) x
    (fun s => if (getV s x).toNat < (getV s y).toNat then 0 else 1)
    (fun s => ((getV s x).toNat + 256 - (getV s y).toNat) % 256)

/-- SUBN Vx, Vy (R172): 8XY7; `V[y] - V[x]` modulo 256 in `V[x]`, `VF` = 0 iff `V[x] > V[y]`; with x = 15 the difference
stays. -/
def Obligations.ReverseSubtractWithNotBorrow : Prop :=
  decodesAs 0xF00F 0x8007 (fun w => .subn (xOf w) (yOf w)) ∧
  ∀ x y : Reg, writesFlagAndResult (.subn x y) x
    (fun s => if (getV s y).toNat < (getV s x).toNat then 0 else 1)
    (fun s => ((getV s y).toNat + 256 - (getV s x).toNat) % 256)

/-- SHR Vx and SHL Vx: 8XY6 and 8XYE with y ignored; `V[x]` halved, or doubled modulo 256, with the bit shifted out in
`VF`; with x = 15 the shifted value stays (R171, R173; that `V[x]` is shifted in place is the spec's decision D7, the
write order D6). -/
def Obligations.ShiftsByOne : Prop :=
  decodesAs 0xF00F 0x8006 (fun w => .shr (xOf w)) ∧ decodesAs 0xF00F 0x800E (fun w => .shl (xOf w)) ∧
  ∀ x : Reg,
    writesFlagAndResult (.shr x) x (fun s => (getV s x).toNat % 2) (fun s => (getV s x).toNat / 2) ∧
    writesFlagAndResult (.shl x) x (fun s => (getV s x).toNat / 128) (fun s => (getV s x).toNat * 2 % 256)

/-! ### Index register and memory -/

/-- LD I, NNN and ADD I, Vx (R180, R181): ANNN and FX_E; `I` becomes NNN, or `I + V[x]` modulo 65536, with no flag
written and nothing else changed but `pc`, which advances by 2. -/
def Obligations.IndexLoadAndAdd : Prop :=
  decodesAs 0xF000 0xA000 (fun w => .ldI (nnnOf w)) ∧ decodesAs 0xF00F 0xF00E (fun w => .addI (xOf w)) ∧
  (∀ (nnn : BitVec 12) (s : State), exec (.ldI nnn) s =
    .next { s with I := BitVec.ofNat 16 nnn.toNat, pc := pcPlus s 2 }) ∧
  ∀ (x : Reg) (s : State), exec (.addI x) s =
    .next { s with I := BitVec.ofNat 16 (s.I.toNat + (getV s x).toNat), pc := pcPlus s 2 }

/-- LD B, Vx (R182): FX_3; with `I + 2` at most 4095 the hundreds, tens and ones digits of `V[x]` go to `I`, `I + 1` and
`I + 2` and every other byte reads as before; otherwise the fault MemOutOfBounds(I + 2) and nothing else changes. -/
def Obligations.StoreDecimalDigits : Prop :=
  decodesAs 0xF00F 0xF003 (fun w => .ldB (xOf w)) ∧
  (∀ (x : Reg) (s : State), s.I.toNat + 2 ≤ 4095 → ∃ t, exec (.ldB x) s = .next t ∧
    (readByte t s.I.toNat).toNat = (getV s x).toNat / 100 ∧
    (readByte t (s.I.toNat + 1)).toNat = (getV s x).toNat / 10 % 10 ∧
    (readByte t (s.I.toNat + 2)).toNat = (getV s x).toNat % 10 ∧
    (∀ a, a < s.I.toNat ∨ s.I.toNat + 2 < a → readByte t a = readByte s a) ∧
    t = { s with memory := t.memory, pc := pcPlus s 2 }) ∧
  ∀ (x : Reg) (s : State), 4095 < s.I.toNat + 2 →
    exec (.ldB x) s = .next { s with fault := some (.memOutOfBounds (s.I.toNat + 2)) }

/-- LD [I], Vx (R183): FX55; with `I + x` at most 4095 each register r from 0 to x goes to `I + r`, every other byte reads
as before and `I` is unchanged; otherwise the fault MemOutOfBounds(I + x) and nothing else changes. -/
def Obligations.BulkStore : Prop :=
  decodesAs 0xF0FF 0xF055 (fun w => .storeRegs (xOf w)) ∧
  (∀ (x : Reg) (s : State), s.I.toNat + x.val ≤ 4095 → ∃ t, exec (.storeRegs x) s = .next t ∧
    (∀ r : Reg, r ≤ x → readByte t (s.I.toNat + r.val) = getV s r) ∧
    (∀ a, a < s.I.toNat ∨ s.I.toNat + x.val < a → readByte t a = readByte s a) ∧
    t = { s with memory := t.memory, pc := pcPlus s 2 }) ∧
  ∀ (x : Reg) (s : State), 4095 < s.I.toNat + x.val →
    exec (.storeRegs x) s = .next { s with fault := some (.memOutOfBounds (s.I.toNat + x.val)) }

/-- LD Vx, [I] (R184): FX65; with `I + x` at most 4095 each register r from 0 to x gets the byte at `I + r`, the registers
above x and `I` are unchanged; otherwise the fault MemOutOfBounds(I + x) and nothing else changes. -/
def Obligations.BulkLoad : Prop :=
  decodesAs 0xF0FF 0xF065 (fun w => .loadRegs (xOf w)) ∧
  (∀ (x : Reg) (s : State), s.I.toNat + x.val ≤ 4095 → ∃ t, exec (.loadRegs x) s = .next t ∧
    (∀ r : Reg, r ≤ x → getV t r = readByte s (s.I.toNat + r.val)) ∧ (∀ r : Reg, x < r → getV t r = getV s r) ∧
    t = { s with V := t.V, pc := pcPlus s 2 }) ∧
  ∀ (x : Reg) (s : State), 4095 < s.I.toNat + x.val →
    exec (.loadRegs x) s = .next { s with fault := some (.memOutOfBounds (s.I.toNat + x.val)) }

/-! ### Timers, font and keys -/

/-- LD Vx, DT; LD DT, Vx; LD ST, Vx: FX_7, FX15, FX_8; in the execute phase `V[x]` gets `DT`, or `DT` or `ST` gets
`V[x]`, `pc` advances by 2, and nothing else changes (R190 to R192). -/
def Obligations.TimerMoves : Prop :=
  decodesAs 0xF00F 0xF007 (fun w => .ldFromDT (xOf w)) ∧ decodesAs 0xF0FF 0xF015 (fun w => .ldDT (xOf w)) ∧
  decodesAs 0xF00F 0xF008 (fun w => .ldST (xOf w)) ∧
  ∀ x : Reg, writesOnly (.ldFromDT x) x (fun s => s.DT.toNat) ∧
    (∀ s : State, exec (.ldDT x) s = .next { s with DT := getV s x, pc := pcPlus s 2 }) ∧
    ∀ s : State, exec (.ldST x) s = .next { s with ST := getV s x, pc := pcPlus s 2 }

/-- LD F, Vx (R193): FX_9; `I` becomes five times the low nibble of `V[x]`, one of 0 to 75, and memory is not read. -/
def Obligations.FontAddress : Prop :=
  decodesAs 0xF00F 0xF009 (fun w => .ldF (xOf w)) ∧
  ∀ (x : Reg) (s : State), exec (.ldF x) s =
    .next { s with I := BitVec.ofNat 16 (5 * ((getV s x).toNat % 16)), pc := pcPlus s 2 }

/-- LD Vx, K: FX_A; with no key down nothing changes, `pc` included; with a key down `V[x]` gets the least index of a key
that is down and `pc` advances by 2 (R124, R194; that the least is stored is the spec's decision D13). -/
def Obligations.KeyWaitStallsOrStoresLowest : Prop :=
  decodesAs 0xF00F 0xF00A (fun w => .ldKey (xOf w)) ∧
  (∀ (x : Reg) (s : State), (∀ k : Key, s.keys[k] = false) → exec (.ldKey x) s = .next s) ∧
  ∀ (x : Reg) (s : State) (k : Key), s.keys[k] = true → (∀ j : Key, j < k → s.keys[j] = false) →
    ∃ t, exec (.ldKey x) s = .next t ∧ (getV t x).toNat = k.val ∧ (∀ r, r ≠ x → getV t r = getV s r) ∧
      t = { s with V := t.V, pc := pcPlus s 2 }

/-- SKP Vx and SKNP Vx: EX9E and EXA1; with `V[x]` at most 15 `pc` advances by 4 when that key is down (up), else by 2;
with `V[x]` above 15 the fault KeyIndexOutOfRange(V[x]); nothing else changes (R195, R196; that a larger index faults is
the spec's decision D14). -/
def Obligations.KeySkips : Prop :=
  decodesAs 0xF0FF 0xE09E (fun w => .skp (xOf w)) ∧ decodesAs 0xF0FF 0xE0A1 (fun w => .sknp (xOf w)) ∧
  (∀ (x : Reg) (s : State) (k : Key), (getV s x).toNat = k.val →
    exec (.skp x) s = .next { s with pc := pcPlus s (if s.keys[k] = true then 4 else 2) } ∧
    exec (.sknp x) s = .next { s with pc := pcPlus s (if s.keys[k] = false then 4 else 2) }) ∧
  ∀ (x : Reg) (s : State), 15 < (getV s x).toNat →
    exec (.skp x) s = .next { s with fault := some (.keyIndexOutOfRange (getV s x)) } ∧
    exec (.sknp x) s = .next { s with fault := some (.keyIndexOutOfRange (getV s x)) }

/-! ### Screen -/

/-- CLS: any group-0 word with low nibble 0; every pixel off, the redraw flag set, `pc` + 2, nothing else changed, the
queue included (R200; that the queue is left alone is the spec's decision D18, that bits 11:4 are ignored D1). -/
def Obligations.ClearScreen : Prop :=
  decodesAs 0xF00F 0x0000 (fun _ => .cls) ∧
  ∀ s : State, ∃ t, exec .cls s = .next t ∧ (∀ xx yy, pixelAt t xx yy = false) ∧
    t = { s with screen := t.screen, redrawRequested := true, pc := pcPlus s 2 }

/-- DRW Vx, Vy, N inside memory: each pixel of the screen is flipped exactly when the sprite at (V[x], V[y]), read before
`VF` is cleared, has a set bit there; nothing is drawn off the screen and nothing wraps; `VF` is 1 exactly when a pixel
was turned off; nothing else changes but the queue, the events and `pc` (R201, R203; clipping is the spec's decision D9,
the bounds check D10). -/
def Obligations.DrawFlipsTheSpritesPixels : Prop :=
  ∀ (x y : Reg) (n : BitVec 4) (s : State), spriteInMemory s n →
    ∃ t, exec (.drw x y n) s = .next t ∧
      (∀ xx yy, pixelAt t xx yy =
        (pixelAt s xx yy ^^ spriteBit s (getV s x).toNat (getV s y).toNat n.toNat xx yy)) ∧
      ((∃ xx yy, spriteBit s (getV s x).toNat (getV s y).toNat n.toNat xx yy = true ∧ pixelAt s xx yy = true) →
        getV t VF = 1) ∧
      ((∀ xx yy, spriteBit s (getV s x).toNat (getV s y).toNat n.toNat xx yy = true → pixelAt s xx yy = false) →
        getV t VF = 0) ∧
      (∀ r, r ≠ VF → getV t r = getV s r) ∧
      t = { s with V := t.V, screen := t.screen, pixelChangeQueue := t.pixelChangeQueue, events := t.events,
                   pc := pcPlus s 2 }

/-- DRW inside memory appends to the queue, and emits, one record for each flipped pixel with its new value, rows top to
bottom and columns left to right (R201, R202; the order is the spec's decision D11). -/
def Obligations.DrawRecordsFlipsRowByRow : Prop :=
  ∀ (x y : Reg) (n : BitVec 4) (s : State), spriteInMemory s n →
    ∃ t, exec (.drw x y n) s = .next t ∧
      t.pixelChangeQueue = s.pixelChangeQueue ++ flips s (getV s x).toNat (getV s y).toNat n.toNat ∧
      t.events = s.events ++ (flips s (getV s x).toNat (getV s y).toNat n.toNat).map Event.pixel

/-- DXYN decodes to DRW, and a DRW with a row above address 4095 raises MemOutOfBounds with the last row's address and
changes nothing else, even when that row would be clipped (R201, R222; the spec's decision D10). -/
def Obligations.DrawOutsideMemoryFaults : Prop :=
  decodesAs 0xF000 0xD000 (fun w => .drw (xOf w) (yOf w) (nOf w)) ∧
  ∀ (x y : Reg) (n : BitVec 4) (s : State), 0 < n.toNat → 4095 < s.I.toNat + n.toNat - 1 →
    exec (.drw x y n) s = .next { s with fault := some (.memOutOfBounds (s.I.toNat + n.toNat - 1)) }

/-- Drawing the same sprite at the same place twice restores the screen, and the second draw's records are the first's
with the opposite values, in the same order (R204). -/
def Obligations.DrawingTwiceRestoresTheScreen : Prop :=
  ∀ (x y x' y' : Reg) (n : BitVec 4) (s t : State), spriteInMemory s n → exec (.drw x y n) s = .next t →
    getV t x' = getV s x → getV t y' = getV s y →
    ∃ u, exec (.drw x' y' n) t = .next u ∧ u.screen = s.screen ∧
      ∃ recs : List PixelRecord, t.pixelChangeQueue = s.pixelChangeQueue ++ recs ∧
        u.pixelChangeQueue = t.pixelChangeQueue ++ recs.map (fun r => { r with v := !r.v })

/-! ### Random, unknown -/

/-- RND Vx, NN: CXNN; `V[x]` gets the random byte supplied to this draw, masked by NN, so no bit outside NN is ever set;
one byte is drawn; nothing else changes (R210; the byte is the model's free value, log entry 1, and the statement holds
whatever it is). -/
def Obligations.RandomUnderMask : Prop :=
  decodesAs 0xF000 0xC000 (fun w => .rnd (xOf w) (nnOf w)) ∧
  ∀ (x : Reg) (nn : Byte) (s : State), ∃ t, exec (.rnd x nn) s = .next t ∧
    getV t x = (Config.randomByte s.rndCount &&& nn) ∧ (getV t x &&& ~~~nn) = 0 ∧
    (∀ r, r ≠ x → getV t r = getV s r) ∧ t = { s with V := t.V, rndCount := s.rndCount + 1, pc := pcPlus s 2 }

/-- A word that selects no row of the opcode map is an unknown opcode, a no-op that advances `pc` by 2 and changes no
register, memory byte, timer or pixel (R101, R125; that the optional diagnostic event is always emitted is the model's
choice, log entry 11). -/
def Obligations.UnknownOpcodeIsANoOp : Prop :=
  (∀ w : Word, (∀ r ∈ opcodeMap, r.selects w = false) → decodeWord w = .unknown w) ∧
  ∀ (w : Word) (s : State), exec (.unknown w) s =
    .next { s with pc := pcPlus s 2, events := s.events ++ [.unknownOpcode w] }

/-! ### Frames -/

/-- Every instruction leaves every general register but those of R22's "writes" column as it was; `VF` is written as a
side effect by the six instructions of R21 only. -/
def Obligations.RegisterFrame : Prop :=
  ∀ (i : Instr) (s t : State) (r : Reg), exec i s = .next t → writesReg i r = false → getV t r = getV s r

/-- Every instruction leaves every byte of memory as it was but those it stores to: the three bytes from `I` of LD B, the
bytes from `I` to `I + x` of LD [I], Vx, and none for every other instruction (R39, R64). -/
def Obligations.MemoryFrame : Prop :=
  ∀ (i : Instr) (s t : State) (a : Nat), exec i s = .next t → a ∉ storeAddrs i s → readByte t a = readByte s a

/-- No instruction writes a key or `currentOpcode`, and each of the other special registers is changed only by the
instructions the spec names for it (R26 to R37). Two fields here are the model's own and no register of the spec: the
events of the step (log entry 2), changed by DRW and the unknown opcode only, and the count of random draws (log entry 1;
R210), changed by RND only. -/
def Obligations.SpecialRegisterFrame : Prop :=
  ∀ (i : Instr) (s t : State), exec i s = .next t →
    t.keys = s.keys ∧ t.currentOpcode = s.currentOpcode ∧
    (match i with | .ldI _ | .addI _ | .ldF _ => True | _ => t.I = s.I) ∧
    (match i with | .call _ => True | _ => t.stack = s.stack) ∧
    (match i with | .call _ | .ret => True | _ => t.sp = s.sp) ∧
    (match i with | .ldDT _ => True | _ => t.DT = s.DT) ∧
    (match i with | .ldST _ => True | _ => t.ST = s.ST) ∧
    (match i with | .cls | .drw _ _ _ => True | _ => t.screen = s.screen) ∧
    (match i with | .cls => True | _ => t.redrawRequested = s.redrawRequested) ∧
    (match i with | .drw _ _ _ => True | _ => t.pixelChangeQueue = s.pixelChangeQueue) ∧
    (match i with | .drw _ _ _ | .unknown _ => True | _ => t.events = s.events) ∧
    (match i with | .rnd _ _ => True | _ => t.rndCount = s.rndCount) ∧
    (match i with
      | .call _ | .ret | .skp _ | .sknp _ | .ldB _ | .storeRegs _ | .loadRegs _ | .drw _ _ _ => True
      | _ => t.fault = s.fault)
end

