-- ==== Sys2Proof/Laws/Decode.lean ====
section
/-! SUPPORT. The fields of an encoded word, one lemma per format and field, and the fields of any word as numbers. -/

namespace Sys2Proof

@[simp] theorem regBits_toNat (r : Reg) : (regBits r).toNat = r.val := rfl

theorem regBits_toFin (r : Reg) : (regBits r).toFin = r := rfl

/-! ### The fields of a word as numbers (R9) -/

theorem Field.op_toNat (w : Word) : (Field.op w).toNat = w.toNat / 4096 := by
  have := w.isLt
  simp [Field.op, Nat.shiftRight_eq_div_pow]
  omega

theorem Field.x_val (w : Word) : (Field.x w).val = w.toNat / 256 % 16 := by
  simp [Field.x, Nat.shiftRight_eq_div_pow]

theorem Field.ysel_toNat (w : Word) : (Field.ysel w).toNat = w.toNat / 16 % 16 := by
  simp [Field.ysel, Nat.shiftRight_eq_div_pow]

theorem Field.y_val (w : Word) : (Field.y w).val = w.toNat / 16 % 16 := by
  simp [Field.y, Field.ysel, Nat.shiftRight_eq_div_pow]

theorem Field.n_toNat (w : Word) : (Field.n w).toNat = w.toNat % 16 := by
  simp [Field.n]

theorem Field.nn_toNat (w : Word) : (Field.nn w).toNat = w.toNat % 256 := by
  simp [Field.nn]

theorem Field.nnn_toNat (w : Word) : (Field.nnn w).toNat = w.toNat % 4096 := by
  simp [Field.nnn]

/-! ### The encoded words as numbers -/

/-- An appended bit vector as a number. -/
theorem toNat_append_add {m n : Nat} (a : BitVec m) (b : BitVec n) : (a ++ b).toNat = a.toNat * 2 ^ n + b.toNat := by
  rw [BitVec.toNat_append, ← Nat.shiftLeft_add_eq_or_of_lt b.isLt, Nat.shiftLeft_eq]

theorem encodeNNN_toNat (op : BitVec 4) (nnn : BitVec 12) :
    (encodeNNN op nnn).toNat = op.toNat * 4096 + nnn.toNat := by
  simp only [encodeNNN, toNat_append_add, Nat.reducePow]

theorem encodeXNN_toNat (op : BitVec 4) (x : Reg) (nn : Byte) :
    (encodeXNN op x nn).toNat = op.toNat * 4096 + x.val * 256 + nn.toNat := by
  simp only [encodeXNN, toNat_append_add, regBits_toNat]
  omega

theorem encodeXYN_toNat (op : BitVec 4) (x y : Reg) (n : BitVec 4) :
    (encodeXYN op x y n).toNat = op.toNat * 4096 + x.val * 256 + y.val * 16 + n.toNat := by
  simp only [encodeXYN, toNat_append_add, regBits_toNat]
  omega

/-! ### The fields of the encoded words -/

@[simp] theorem op_encodeNNN (op : BitVec 4) (nnn : BitVec 12) : Field.op (encodeNNN op nnn) = op := by
  apply BitVec.eq_of_toNat_eq
  rw [Field.op_toNat, encodeNNN_toNat]
  have := nnn.isLt
  omega

@[simp] theorem nnn_encodeNNN (op : BitVec 4) (nnn : BitVec 12) : Field.nnn (encodeNNN op nnn) = nnn := by
  apply BitVec.eq_of_toNat_eq
  rw [Field.nnn_toNat, encodeNNN_toNat]
  have := nnn.isLt
  omega

@[simp] theorem op_encodeXNN (op : BitVec 4) (x : Reg) (nn : Byte) : Field.op (encodeXNN op x nn) = op := by
  apply BitVec.eq_of_toNat_eq
  rw [Field.op_toNat, encodeXNN_toNat]
  have := nn.isLt
  have := x.isLt
  omega

@[simp] theorem x_encodeXNN (op : BitVec 4) (x : Reg) (nn : Byte) : Field.x (encodeXNN op x nn) = x := by
  apply Fin.ext
  rw [Field.x_val, encodeXNN_toNat]
  have := nn.isLt
  have := x.isLt
  omega

@[simp] theorem nn_encodeXNN (op : BitVec 4) (x : Reg) (nn : Byte) : Field.nn (encodeXNN op x nn) = nn := by
  apply BitVec.eq_of_toNat_eq
  rw [Field.nn_toNat, encodeXNN_toNat]
  have := nn.isLt
  omega

/-- The low nibble of an encoded low byte. -/
theorem n_encodeXNN (op : BitVec 4) (x : Reg) (nn : Byte) :
    Field.n (encodeXNN op x nn) = BitVec.ofNat 4 (nn.toNat % 16) := by
  apply BitVec.eq_of_toNat_eq
  rw [Field.n_toNat, encodeXNN_toNat]
  simp
  omega

/-- The high nibble of an encoded low byte. -/
theorem ysel_encodeXNN (op : BitVec 4) (x : Reg) (nn : Byte) :
    Field.ysel (encodeXNN op x nn) = BitVec.ofNat 4 (nn.toNat / 16) := by
  apply BitVec.eq_of_toNat_eq
  rw [Field.ysel_toNat, encodeXNN_toNat]
  have := nn.isLt
  simp
  omega

@[simp] theorem op_encodeXYN (op : BitVec 4) (x y : Reg) (n : BitVec 4) : Field.op (encodeXYN op x y n) = op := by
  apply BitVec.eq_of_toNat_eq
  rw [Field.op_toNat, encodeXYN_toNat]
  have := n.isLt
  have := x.isLt
  have := y.isLt
  omega

@[simp] theorem x_encodeXYN (op : BitVec 4) (x y : Reg) (n : BitVec 4) : Field.x (encodeXYN op x y n) = x := by
  apply Fin.ext
  rw [Field.x_val, encodeXYN_toNat]
  have := n.isLt
  have := x.isLt
  have := y.isLt
  omega

@[simp] theorem y_encodeXYN (op : BitVec 4) (x y : Reg) (n : BitVec 4) : Field.y (encodeXYN op x y n) = y := by
  apply Fin.ext
  rw [Field.y_val, encodeXYN_toNat]
  have := n.isLt
  have := y.isLt
  omega

@[simp] theorem n_encodeXYN (op : BitVec 4) (x y : Reg) (n : BitVec 4) : Field.n (encodeXYN op x y n) = n := by
  apply BitVec.eq_of_toNat_eq
  rw [Field.n_toNat, encodeXYN_toNat]
  have := n.isLt
  omega

/-! ### What the masks of the opcode map keep (R99) -/

theorem and_F000 (w : Word) : w &&& 0xF000 = Field.op w ++ 0#12 := by
  apply BitVec.eq_of_getLsbD_eq
  intro i hi
  rw [BitVec.getLsbD_and, BitVec.getLsbD_append]
  interval_cases i <;> simp [Field.op]

theorem and_F00F (w : Word) : w &&& 0xF00F = Field.op w ++ 0#8 ++ Field.n w := by
  apply BitVec.eq_of_getLsbD_eq
  intro i hi
  rw [BitVec.getLsbD_and, BitVec.getLsbD_append, BitVec.getLsbD_append]
  interval_cases i <;> simp [Field.op, Field.n]

theorem and_F0FF (w : Word) : w &&& 0xF0FF = Field.op w ++ 0#4 ++ Field.nn w := by
  apply BitVec.eq_of_getLsbD_eq
  intro i hi
  rw [BitVec.getLsbD_and, BitVec.getLsbD_append, BitVec.getLsbD_append]
  interval_cases i <;> simp [Field.op, Field.nn]

/-- A row with mask 0xF000 is selected by the primary group. -/
theorem selects_F000 (w : Word) (b : Nat) (hb : b < 65536) :
    (OpRow.mk 0xF000 (BitVec.ofNat 16 b)).selects w = true ↔ w.toNat / 4096 * 4096 = b := by
  have : (Field.op w ++ 0#12 : BitVec 16).toNat = w.toNat / 4096 * 4096 := by
    rw [toNat_append_add, Field.op_toNat]
    show _ * 4096 + 0 = _
    omega
  simp only [OpRow.selects, beq_iff_eq]
  rw [and_F000, ← BitVec.toNat_inj, this, BitVec.toNat_ofNat, Nat.mod_eq_of_lt hb]

/-- A row with mask 0xF00F is selected by the primary group and the low nibble. -/
theorem selects_F00F (w : Word) (b : Nat) (hb : b < 65536) :
    (OpRow.mk 0xF00F (BitVec.ofNat 16 b)).selects w = true ↔ w.toNat / 4096 * 4096 + w.toNat % 16 = b := by
  have : (Field.op w ++ 0#8 ++ Field.n w : BitVec 16).toNat = w.toNat / 4096 * 4096 + w.toNat % 16 := by
    rw [toNat_append_add, toNat_append_add, Field.op_toNat, Field.n_toNat]
    show (_ * 256 + 0) * 16 + _ = _
    omega
  simp only [OpRow.selects, beq_iff_eq]
  rw [and_F00F, ← BitVec.toNat_inj, this, BitVec.toNat_ofNat, Nat.mod_eq_of_lt hb]

/-- A row with mask 0xF0FF is selected by the primary group and the low byte. -/
theorem selects_F0FF (w : Word) (b : Nat) (hb : b < 65536) :
    (OpRow.mk 0xF0FF (BitVec.ofNat 16 b)).selects w = true ↔ w.toNat / 4096 * 4096 + w.toNat % 256 = b := by
  have : (Field.op w ++ 0#4 ++ Field.nn w : BitVec 16).toNat = w.toNat / 4096 * 4096 + w.toNat % 256 := by
    rw [toNat_append_add, toNat_append_add, Field.op_toNat, Field.nn_toNat]
    show (_ * 16 + 0) * 256 + _ = _
    omega
  simp only [OpRow.selects, beq_iff_eq]
  rw [and_F0FF, ← BitVec.toNat_inj, this, BitVec.toNat_ofNat, Nat.mod_eq_of_lt hb]

/-- What selecting a row says of the word, as numbers: one of the 34 rows of the opcode map (R99). -/
theorem selected_row (w : Word) (r : OpRow) (hr : r ∈ opcodeMap) (hs : r.selects w = true) :
    (∃ b ∈ [0x1000, 0x2000, 0x3000, 0x4000, 0x5000, 0x6000, 0x7000, 0x9000, 0xA000, 0xB000, 0xC000, 0xD000],
      w.toNat / 4096 * 4096 = b) ∨
    (∃ b ∈ [0x0000, 0x000E, 0x8000, 0x8001, 0x8002, 0x8003, 0x8004, 0x8005, 0x8006, 0x8007, 0x800E, 0xF007, 0xF00A,
      0xF008, 0xF00E, 0xF009, 0xF003], w.toNat / 4096 * 4096 + w.toNat % 16 = b) ∨
    (∃ b ∈ [0xE09E, 0xE0A1, 0xF015, 0xF055, 0xF065], w.toNat / 4096 * 4096 + w.toNat % 256 = b) := by
  simp only [opcodeMap, List.cons_append, List.nil_append] at hr
  rcases List.mem_cons.mp hr with h | hr
  · exact .inr (.inl ⟨0x0000, by decide, (selects_F00F w 0x0000 (by decide)).mp (h ▸ hs)⟩)
  rcases List.mem_cons.mp hr with h | hr
  · exact .inr (.inl ⟨0x000E, by decide, (selects_F00F w 0x000E (by decide)).mp (h ▸ hs)⟩)
  rcases List.mem_cons.mp hr with h | hr
  · exact .inl ⟨0x1000, by decide, (selects_F000 w 0x1000 (by decide)).mp (h ▸ hs)⟩
  rcases List.mem_cons.mp hr with h | hr
  · exact .inl ⟨0x2000, by decide, (selects_F000 w 0x2000 (by decide)).mp (h ▸ hs)⟩
  rcases List.mem_cons.mp hr with h | hr
  · exact .inl ⟨0x3000, by decide, (selects_F000 w 0x3000 (by decide)).mp (h ▸ hs)⟩
  rcases List.mem_cons.mp hr with h | hr
  · exact .inl ⟨0x4000, by decide, (selects_F000 w 0x4000 (by decide)).mp (h ▸ hs)⟩
  rcases List.mem_cons.mp hr with h | hr
  · exact .inl ⟨0x5000, by decide, (selects_F000 w 0x5000 (by decide)).mp (h ▸ hs)⟩
  rcases List.mem_cons.mp hr with h | hr
  · exact .inl ⟨0x6000, by decide, (selects_F000 w 0x6000 (by decide)).mp (h ▸ hs)⟩
  rcases List.mem_cons.mp hr with h | hr
  · exact .inl ⟨0x7000, by decide, (selects_F000 w 0x7000 (by decide)).mp (h ▸ hs)⟩
  rcases List.mem_cons.mp hr with h | hr
  · exact .inr (.inl ⟨0x8000, by decide, (selects_F00F w 0x8000 (by decide)).mp (h ▸ hs)⟩)
  rcases List.mem_cons.mp hr with h | hr
  · exact .inr (.inl ⟨0x8001, by decide, (selects_F00F w 0x8001 (by decide)).mp (h ▸ hs)⟩)
  rcases List.mem_cons.mp hr with h | hr
  · exact .inr (.inl ⟨0x8002, by decide, (selects_F00F w 0x8002 (by decide)).mp (h ▸ hs)⟩)
  rcases List.mem_cons.mp hr with h | hr
  · exact .inr (.inl ⟨0x8003, by decide, (selects_F00F w 0x8003 (by decide)).mp (h ▸ hs)⟩)
  rcases List.mem_cons.mp hr with h | hr
  · exact .inr (.inl ⟨0x8004, by decide, (selects_F00F w 0x8004 (by decide)).mp (h ▸ hs)⟩)
  rcases List.mem_cons.mp hr with h | hr
  · exact .inr (.inl ⟨0x8005, by decide, (selects_F00F w 0x8005 (by decide)).mp (h ▸ hs)⟩)
  rcases List.mem_cons.mp hr with h | hr
  · exact .inr (.inl ⟨0x8006, by decide, (selects_F00F w 0x8006 (by decide)).mp (h ▸ hs)⟩)
  rcases List.mem_cons.mp hr with h | hr
  · exact .inr (.inl ⟨0x8007, by decide, (selects_F00F w 0x8007 (by decide)).mp (h ▸ hs)⟩)
  rcases List.mem_cons.mp hr with h | hr
  · exact .inr (.inl ⟨0x800E, by decide, (selects_F00F w 0x800E (by decide)).mp (h ▸ hs)⟩)
  rcases List.mem_cons.mp hr with h | hr
  · exact .inl ⟨0x9000, by decide, (selects_F000 w 0x9000 (by decide)).mp (h ▸ hs)⟩
  rcases List.mem_cons.mp hr with h | hr
  · exact .inl ⟨0xA000, by decide, (selects_F000 w 0xA000 (by decide)).mp (h ▸ hs)⟩
  rcases List.mem_cons.mp hr with h | hr
  · exact .inl ⟨0xB000, by decide, (selects_F000 w 0xB000 (by decide)).mp (h ▸ hs)⟩
  rcases List.mem_cons.mp hr with h | hr
  · exact .inl ⟨0xC000, by decide, (selects_F000 w 0xC000 (by decide)).mp (h ▸ hs)⟩
  rcases List.mem_cons.mp hr with h | hr
  · exact .inl ⟨0xD000, by decide, (selects_F000 w 0xD000 (by decide)).mp (h ▸ hs)⟩
  rcases List.mem_cons.mp hr with h | hr
  · exact .inr (.inr ⟨0xE09E, by decide, (selects_F0FF w 0xE09E (by decide)).mp (h ▸ hs)⟩)
  rcases List.mem_cons.mp hr with h | hr
  · exact .inr (.inr ⟨0xE0A1, by decide, (selects_F0FF w 0xE0A1 (by decide)).mp (h ▸ hs)⟩)
  rcases List.mem_cons.mp hr with h | hr
  · exact .inr (.inl ⟨0xF007, by decide, (selects_F00F w 0xF007 (by decide)).mp (h ▸ hs)⟩)
  rcases List.mem_cons.mp hr with h | hr
  · exact .inr (.inl ⟨0xF00A, by decide, (selects_F00F w 0xF00A (by decide)).mp (h ▸ hs)⟩)
  rcases List.mem_cons.mp hr with h | hr
  · exact .inr (.inr ⟨0xF015, by decide, (selects_F0FF w 0xF015 (by decide)).mp (h ▸ hs)⟩)
  rcases List.mem_cons.mp hr with h | hr
  · exact .inr (.inl ⟨0xF008, by decide, (selects_F00F w 0xF008 (by decide)).mp (h ▸ hs)⟩)
  rcases List.mem_cons.mp hr with h | hr
  · exact .inr (.inl ⟨0xF00E, by decide, (selects_F00F w 0xF00E (by decide)).mp (h ▸ hs)⟩)
  rcases List.mem_cons.mp hr with h | hr
  · exact .inr (.inl ⟨0xF009, by decide, (selects_F00F w 0xF009 (by decide)).mp (h ▸ hs)⟩)
  rcases List.mem_cons.mp hr with h | hr
  · exact .inr (.inl ⟨0xF003, by decide, (selects_F00F w 0xF003 (by decide)).mp (h ▸ hs)⟩)
  rcases List.mem_cons.mp hr with h | hr
  · exact .inr (.inr ⟨0xF055, by decide, (selects_F0FF w 0xF055 (by decide)).mp (h ▸ hs)⟩)
  rcases List.mem_cons.mp hr with h | hr
  · exact .inr (.inr ⟨0xF065, by decide, (selects_F0FF w 0xF065 (by decide)).mp (h ▸ hs)⟩)
  simp at hr

/-- The two bytes of a word put together again are the word (R62). -/
@[simp] theorem wordOfBytes_bytes (w : Word) : wordOfBytes (highByte w) (lowByte w) = w := by
  apply BitVec.eq_of_toNat_eq
  have := w.isLt
  simp only [wordOfBytes, toNat_append_add, highByte, lowByte, BitVec.extractLsb'_toNat, Nat.shiftRight_eq_div_pow]
  omega

/-- A word of two bytes as a number: the byte at the lower address is the high byte (R62). -/
theorem wordOfBytes_toNat (hi lo : Byte) : (wordOfBytes hi lo).toNat = hi.toNat * 256 + lo.toNat := by
  simp only [wordOfBytes, toNat_append_add, Nat.reducePow]

end Sys2Proof
end

