-- ==== Sys2Proof/Laws/Memory.lean ====
section
/-! SUPPORT. The laws of the byte memory: read after write, and the canonical form is kept. -/

namespace Sys2Proof.Machine

/-- A cell put into a memory that lists no cell of its address is read at that address. -/
theorem Memory.read_insert_same (a : Nat) (v : Byte) (m : Memory) (h : ∀ c ∈ m, c.1 ≠ a) :
    Memory.read (Memory.insert a v m) a = v := by
  induction m with
  | nil => simp [Memory.insert, Memory.read]
  | cons c rest ih =>
    obtain ⟨k, b⟩ := c
    have hk : k ≠ a := h (k, b) (by simp)
    by_cases hlt : a < k
    · simp [Memory.insert, hlt, Memory.read]
    · simp only [Memory.insert, hlt, if_false, Memory.read, hk]
      exact ih fun c hc => h c (by simp [hc])

/-- A cell put into a memory leaves every other address as it was. -/
theorem Memory.read_insert_other (a b : Nat) (v : Byte) (m : Memory) (h : b ≠ a) :
    Memory.read (Memory.insert a v m) b = Memory.read m b := by
  induction m with
  | nil => simp [Memory.insert, Memory.read, h.symm]
  | cons c rest ih =>
    obtain ⟨k, w⟩ := c
    by_cases hlt : a < k
    · simp [Memory.insert, hlt, Memory.read, h.symm]
    · simp only [Memory.insert, hlt, if_false, Memory.read, ih]

/-- Without its cells an address reads as unlisted. -/
theorem Memory.read_filter_same (m : Memory) (a : Nat) :
    Memory.read (m.filter (fun c => c.1 ≠ a)) a = Memory.unlisted a := by
  induction m with
  | nil => rfl
  | cons c rest ih =>
    by_cases hk : c.1 = a
    · simpa [List.filter_cons, hk] using ih
    · simpa [List.filter_cons, hk, Memory.read] using ih

/-- Dropping the cells of one address leaves every other address as it was. -/
theorem Memory.read_filter_other (m : Memory) (a b : Nat) (h : b ≠ a) :
    Memory.read (m.filter (fun c => c.1 ≠ a)) b = Memory.read m b := by
  induction m with
  | nil => rfl
  | cons c rest ih =>
    obtain ⟨k, w⟩ := c
    by_cases hk : k = a
    · subst hk
      simpa [List.filter_cons, Memory.read, h.symm] using ih
    · have : (List.filter (fun c : Host.Cell => c.1 ≠ a) ((k, w) :: rest)) =
          (k, w) :: rest.filter (fun c => c.1 ≠ a) := by simp [hk]
      rw [this]
      simp only [Memory.read, ih]

/-- A read after a write to the same address gives the value written (R68). -/
@[simp] theorem Memory.read_write_same (m : Memory) (a : Nat) (v : Byte) :
    Memory.read (Memory.write m a v) a = v := by
  by_cases hv : v = Memory.unlisted a
  · simpa [Memory.write, hv] using Memory.read_filter_same m a
  · simp only [Memory.write, hv, if_false]
    exact Memory.read_insert_same a v _ (by simp)

/-- A write leaves every other address alone (R68). -/
theorem Memory.read_write_other (m : Memory) (a b : Nat) (v : Byte) (h : b ≠ a) :
    Memory.read (Memory.write m a v) b = Memory.read m b := by
  by_cases hv : v = Memory.unlisted a
  · simpa [Memory.write, hv] using Memory.read_filter_other m a b h
  · simp only [Memory.write, hv, if_false]
    rw [Memory.read_insert_other _ _ _ _ h, Memory.read_filter_other m a b h]

/-- A read after a write, at any address. -/
theorem Memory.read_write (m : Memory) (a b : Nat) (v : Byte) :
    Memory.read (Memory.write m a v) b = if b = a then v else Memory.read m b := by
  by_cases h : b = a
  · simp [h]
  · simp [h, Memory.read_write_other m a b v h]

/-- The canonical form, one cell at a time. -/
theorem Memory.wf_cons (k : Nat) (v : Byte) (m : Memory) :
    Memory.wf ((k, v) :: m) = true ↔
      (∀ c ∈ m, k < c.1) ∧ k < 4096 ∧ v ≠ Memory.unlisted k ∧ Memory.wf m = true := by
  simp [Memory.wf, and_assoc]

/-- Memory after reset lists nothing, in canonical form. -/
theorem Memory.wf_nil : Memory.wf [] = true := rfl

/-- Dropping cells keeps the canonical form. -/
theorem Memory.wf_filter (m : Memory) (p : Host.Cell → Bool) (h : Memory.wf m = true) :
    Memory.wf (m.filter p) = true := by
  induction m with
  | nil => rfl
  | cons c rest ih =>
    obtain ⟨k, v⟩ := c
    rw [Memory.wf_cons] at h
    by_cases hp : p (k, v) = true
    · rw [List.filter_cons_of_pos hp, Memory.wf_cons]
      exact ⟨fun c hc => h.1 c (List.mem_filter.mp hc).1, h.2.1, h.2.2.1, ih h.2.2.2⟩
    · rw [List.filter_cons_of_neg hp]
      exact ih h.2.2.2

/-- Putting a cell of a new address in its place keeps the canonical form. -/
theorem Memory.wf_insert (a : Nat) (v : Byte) (m : Memory) (h : Memory.wf m = true) (ha : a < 4096)
    (hv : v ≠ Memory.unlisted a) (hn : ∀ c ∈ m, c.1 ≠ a) : Memory.wf (Memory.insert a v m) = true := by
  induction m with
  | nil => simp [Memory.insert, Memory.wf, ha, hv]
  | cons c rest ih =>
    obtain ⟨k, b⟩ := c
    have hw := h
    rw [Memory.wf_cons] at h
    have hk : k ≠ a := hn (k, b) (by simp)
    by_cases hlt : a < k
    · simp only [Memory.insert, hlt, if_true]
      rw [Memory.wf_cons]
      refine ⟨?_, ha, hv, hw⟩
      intro c hc
      rcases List.mem_cons.mp hc with rfl | hc
      · exact hlt
      · exact Nat.lt_trans hlt (h.1 c hc)
    · simp only [Memory.insert, hlt, if_false]
      rw [Memory.wf_cons]
      refine ⟨?_, h.2.1, h.2.2.1, ih h.2.2.2 fun c hc => hn c (by simp [hc])⟩
      have hmem : ∀ (m : Memory) (c : Host.Cell), c ∈ Memory.insert a v m → c = (a, v) ∨ c ∈ m := by
        intro m
        induction m with
        | nil => intro c hc; simpa [Memory.insert] using hc
        | cons d r ihr =>
          obtain ⟨kd, bd⟩ := d
          intro c hc
          by_cases hd : a < kd
          · simpa [Memory.insert, hd] using hc
          · simp only [Memory.insert, hd, if_false, List.mem_cons] at hc
            rcases hc with rfl | hc
            · simp
            · rcases ihr c hc with h' | h' <;> simp [h']
      intro c hc
      rcases hmem rest c hc with rfl | hc
      · show k < a
        omega
      · exact h.1 c hc

/-- A write of an address of memory keeps the canonical form (R60). -/
theorem Memory.wf_write (m : Memory) (a : Nat) (v : Byte) (h : Memory.wf m = true) (ha : a < 4096) :
    Memory.wf (Memory.write m a v) = true := by
  by_cases hv : v = Memory.unlisted a
  · simpa [Memory.write, hv] using Memory.wf_filter m _ h
  · simp only [Memory.write, hv, if_false]
    exact Memory.wf_insert a v _ (Memory.wf_filter m _ h) ha hv (by simp)

/-- Writing bytes inside memory keeps the canonical form. -/
theorem Memory.wf_writeList (l : List Byte) (m : Memory) (a : Nat) (h : Memory.wf m = true)
    (ha : a + l.length ≤ 4096) : Memory.wf (Memory.writeList m a l) = true := by
  induction l generalizing m a with
  | nil => exact h
  | cons b bs ih =>
    simp only [List.length_cons] at ha
    exact ih _ _ (Memory.wf_write m a b h (by omega)) (by omega)

/-- A byte outside a written list reads as before. -/
theorem Memory.read_writeList_other (l : List Byte) (m : Memory) (a b : Nat) (h : b < a ∨ a + l.length ≤ b) :
    Memory.read (Memory.writeList m a l) b = Memory.read m b := by
  induction l generalizing m a with
  | nil => rfl
  | cons c cs ih =>
    simp only [List.length_cons] at h
    rw [Memory.writeList, ih _ _ (by omega), Memory.read_write_other _ _ _ _ (by omega)]

/-- A byte of a written list reads as written (R262). -/
theorem Memory.read_writeList_same (l : List Byte) (m : Memory) (a i : Nat) (h : i < l.length) :
    Memory.read (Memory.writeList m a l) (a + i) = l[i] := by
  induction l generalizing m a i with
  | nil => simp at h
  | cons c cs ih =>
    cases i with
    | zero =>
      rw [Memory.writeList, Memory.read_writeList_other _ _ _ _ (by omega)]
      simp
    | succ j =>
      have := ih (Memory.write m a c) (a + 1) j (by simpa using h)
      rw [Memory.writeList, show a + (j + 1) = a + 1 + j by omega, this]
      rfl

/-- An address that no cell lists reads as unlisted. -/
theorem Memory.read_unlisted (m : Memory) (a : Nat) (h : ∀ c ∈ m, c.1 ≠ a) :
    Memory.read m a = Memory.unlisted a := by
  induction m with
  | nil => rfl
  | cons c rest ih =>
    obtain ⟨k, v⟩ := c
    have hk : k ≠ a := h (k, v) (by simp)
    simp only [Memory.read, hk, if_false]
    exact ih fun c hc => h c (by simp [hc])

/-- The form is canonical: two memories in it that read alike are the same data. -/
theorem Memory.eq_of_read (m m' : Memory) (h : Memory.wf m = true) (h' : Memory.wf m' = true)
    (hr : ∀ a, Memory.read m a = Memory.read m' a) : m = m' := by
  induction m generalizing m' with
  | nil =>
    cases m' with
    | nil => rfl
    | cons c r =>
      obtain ⟨k, v⟩ := c
      have hk := hr k
      simp only [Memory.read, if_true] at hk
      exact absurd hk.symm ((Memory.wf_cons _ _ _).mp h').2.2.1
  | cons c r ih =>
    obtain ⟨k, v⟩ := c
    have hw := (Memory.wf_cons _ _ _).mp h
    cases m' with
    | nil =>
      have hk := hr k
      simp only [Memory.read, if_true] at hk
      exact absurd hk hw.2.2.1
    | cons c' r' =>
      obtain ⟨k', v'⟩ := c'
      have hw' := (Memory.wf_cons _ _ _).mp h'
      have below : ∀ (j : Nat) (w : Byte) (q : Memory), Memory.wf ((j, w) :: q) = true → ∀ a, a < j →
          Memory.read ((j, w) :: q) a = Memory.unlisted a := by
        intro j w q hq a ha
        have hq := (Memory.wf_cons _ _ _).mp hq
        refine Memory.read_unlisted _ _ fun c hc => ?_
        rcases List.mem_cons.mp hc with rfl | hc
        · show j ≠ a
          omega
        · have := hq.1 c hc
          omega
      have hkk : k = k' := by
        rcases Nat.lt_trichotomy k k' with hlt | heq | hgt
        · have hk := hr k
          rw [below _ _ _ h' k hlt] at hk
          simp only [Memory.read, if_true] at hk
          exact absurd hk hw.2.2.1
        · exact heq
        · have hk := hr k'
          rw [below _ _ _ h k' hgt] at hk
          simp only [Memory.read, if_true] at hk
          exact absurd hk.symm hw'.2.2.1
      subst hkk
      have hv : v = v' := by simpa [Memory.read] using hr k
      subst hv
      have htail : ∀ a, Memory.read r a = Memory.read r' a := by
        intro a
        by_cases ha : k = a
        · subst ha
          rw [Memory.read_unlisted r k fun c hc => by have := hw.1 c hc; omega,
            Memory.read_unlisted r' k fun c hc => by have := hw'.1 c hc; omega]
        · simpa [Memory.read, ha] using hr a
      rw [ih r' hw.2.2.2 hw'.2.2.2 htail]

end Sys2Proof.Machine
end

