-- ==== Sys2Proof/Laws/State.lean ====
section
/-! SUPPORT. What each update of the state leaves in each field: one lemma per field per update, true by rfl, so that
no proof unfolds a record update. -/

namespace Sys2Proof.Machine

@[simp] theorem setV_memory (s : State) (i : Reg) (v : Byte) : (setV s i v).memory = s.memory := rfl
@[simp] theorem setV_V (s : State) (i : Reg) (v : Byte) : (setV s i v).V = s.V.set i v := rfl
@[simp] theorem setV_I (s : State) (i : Reg) (v : Byte) : (setV s i v).I = s.I := rfl
@[simp] theorem setV_pc (s : State) (i : Reg) (v : Byte) : (setV s i v).pc = s.pc := rfl
@[simp] theorem setV_stack (s : State) (i : Reg) (v : Byte) : (setV s i v).stack = s.stack := rfl
@[simp] theorem setV_sp (s : State) (i : Reg) (v : Byte) : (setV s i v).sp = s.sp := rfl
@[simp] theorem setV_DT (s : State) (i : Reg) (v : Byte) : (setV s i v).DT = s.DT := rfl
@[simp] theorem setV_ST (s : State) (i : Reg) (v : Byte) : (setV s i v).ST = s.ST := rfl
@[simp] theorem setV_screen (s : State) (i : Reg) (v : Byte) : (setV s i v).screen = s.screen := rfl
@[simp] theorem setV_keys (s : State) (i : Reg) (v : Byte) : (setV s i v).keys = s.keys := rfl
@[simp] theorem setV_currentOpcode (s : State) (i : Reg) (v : Byte) : (setV s i v).currentOpcode = s.currentOpcode := rfl
@[simp] theorem setV_redrawRequested (s : State) (i : Reg) (v : Byte) : (setV s i v).redrawRequested = s.redrawRequested := rfl
@[simp] theorem setV_pixelChangeQueue (s : State) (i : Reg) (v : Byte) : (setV s i v).pixelChangeQueue = s.pixelChangeQueue := rfl
@[simp] theorem setV_fault (s : State) (i : Reg) (v : Byte) : (setV s i v).fault = s.fault := rfl
@[simp] theorem setV_events (s : State) (i : Reg) (v : Byte) : (setV s i v).events = s.events := rfl
@[simp] theorem setV_rndCount (s : State) (i : Reg) (v : Byte) : (setV s i v).rndCount = s.rndCount := rfl

@[simp] theorem setI_memory (s : State) (v : Word) : (setI s v).memory = s.memory := rfl
@[simp] theorem setI_V (s : State) (v : Word) : (setI s v).V = s.V := rfl
@[simp] theorem setI_I (s : State) (v : Word) : (setI s v).I = v := rfl
@[simp] theorem setI_pc (s : State) (v : Word) : (setI s v).pc = s.pc := rfl
@[simp] theorem setI_stack (s : State) (v : Word) : (setI s v).stack = s.stack := rfl
@[simp] theorem setI_sp (s : State) (v : Word) : (setI s v).sp = s.sp := rfl
@[simp] theorem setI_DT (s : State) (v : Word) : (setI s v).DT = s.DT := rfl
@[simp] theorem setI_ST (s : State) (v : Word) : (setI s v).ST = s.ST := rfl
@[simp] theorem setI_screen (s : State) (v : Word) : (setI s v).screen = s.screen := rfl
@[simp] theorem setI_keys (s : State) (v : Word) : (setI s v).keys = s.keys := rfl
@[simp] theorem setI_currentOpcode (s : State) (v : Word) : (setI s v).currentOpcode = s.currentOpcode := rfl
@[simp] theorem setI_redrawRequested (s : State) (v : Word) : (setI s v).redrawRequested = s.redrawRequested := rfl
@[simp] theorem setI_pixelChangeQueue (s : State) (v : Word) : (setI s v).pixelChangeQueue = s.pixelChangeQueue := rfl
@[simp] theorem setI_fault (s : State) (v : Word) : (setI s v).fault = s.fault := rfl
@[simp] theorem setI_events (s : State) (v : Word) : (setI s v).events = s.events := rfl
@[simp] theorem setI_rndCount (s : State) (v : Word) : (setI s v).rndCount = s.rndCount := rfl

@[simp] theorem setPc_memory (s : State) (p : Word) : (setPc s p).memory = s.memory := rfl
@[simp] theorem setPc_V (s : State) (p : Word) : (setPc s p).V = s.V := rfl
@[simp] theorem setPc_I (s : State) (p : Word) : (setPc s p).I = s.I := rfl
@[simp] theorem setPc_pc (s : State) (p : Word) : (setPc s p).pc = p := rfl
@[simp] theorem setPc_stack (s : State) (p : Word) : (setPc s p).stack = s.stack := rfl
@[simp] theorem setPc_sp (s : State) (p : Word) : (setPc s p).sp = s.sp := rfl
@[simp] theorem setPc_DT (s : State) (p : Word) : (setPc s p).DT = s.DT := rfl
@[simp] theorem setPc_ST (s : State) (p : Word) : (setPc s p).ST = s.ST := rfl
@[simp] theorem setPc_screen (s : State) (p : Word) : (setPc s p).screen = s.screen := rfl
@[simp] theorem setPc_keys (s : State) (p : Word) : (setPc s p).keys = s.keys := rfl
@[simp] theorem setPc_currentOpcode (s : State) (p : Word) : (setPc s p).currentOpcode = s.currentOpcode := rfl
@[simp] theorem setPc_redrawRequested (s : State) (p : Word) : (setPc s p).redrawRequested = s.redrawRequested := rfl
@[simp] theorem setPc_pixelChangeQueue (s : State) (p : Word) : (setPc s p).pixelChangeQueue = s.pixelChangeQueue := rfl
@[simp] theorem setPc_fault (s : State) (p : Word) : (setPc s p).fault = s.fault := rfl
@[simp] theorem setPc_events (s : State) (p : Word) : (setPc s p).events = s.events := rfl
@[simp] theorem setPc_rndCount (s : State) (p : Word) : (setPc s p).rndCount = s.rndCount := rfl

@[simp] theorem advance_memory (s : State) (k : Nat) : (advance s k).memory = s.memory := rfl
@[simp] theorem advance_V (s : State) (k : Nat) : (advance s k).V = s.V := rfl
@[simp] theorem advance_I (s : State) (k : Nat) : (advance s k).I = s.I := rfl
@[simp] theorem advance_pc (s : State) (k : Nat) : (advance s k).pc = s.pc + BitVec.ofNat 16 k := rfl
@[simp] theorem advance_stack (s : State) (k : Nat) : (advance s k).stack = s.stack := rfl
@[simp] theorem advance_sp (s : State) (k : Nat) : (advance s k).sp = s.sp := rfl
@[simp] theorem advance_DT (s : State) (k : Nat) : (advance s k).DT = s.DT := rfl
@[simp] theorem advance_ST (s : State) (k : Nat) : (advance s k).ST = s.ST := rfl
@[simp] theorem advance_screen (s : State) (k : Nat) : (advance s k).screen = s.screen := rfl
@[simp] theorem advance_keys (s : State) (k : Nat) : (advance s k).keys = s.keys := rfl
@[simp] theorem advance_currentOpcode (s : State) (k : Nat) : (advance s k).currentOpcode = s.currentOpcode := rfl
@[simp] theorem advance_redrawRequested (s : State) (k : Nat) : (advance s k).redrawRequested = s.redrawRequested := rfl
@[simp] theorem advance_pixelChangeQueue (s : State) (k : Nat) : (advance s k).pixelChangeQueue = s.pixelChangeQueue := rfl
@[simp] theorem advance_fault (s : State) (k : Nat) : (advance s k).fault = s.fault := rfl
@[simp] theorem advance_events (s : State) (k : Nat) : (advance s k).events = s.events := rfl
@[simp] theorem advance_rndCount (s : State) (k : Nat) : (advance s k).rndCount = s.rndCount := rfl

@[simp] theorem skipIf_memory (c : Bool) (s : State) : (skipIf c s).memory = s.memory := rfl
@[simp] theorem skipIf_V (c : Bool) (s : State) : (skipIf c s).V = s.V := rfl
@[simp] theorem skipIf_I (c : Bool) (s : State) : (skipIf c s).I = s.I := rfl
@[simp] theorem skipIf_pc (c : Bool) (s : State) : (skipIf c s).pc = s.pc + BitVec.ofNat 16 (if c then 4 else 2) := rfl
@[simp] theorem skipIf_stack (c : Bool) (s : State) : (skipIf c s).stack = s.stack := rfl
@[simp] theorem skipIf_sp (c : Bool) (s : State) : (skipIf c s).sp = s.sp := rfl
@[simp] theorem skipIf_DT (c : Bool) (s : State) : (skipIf c s).DT = s.DT := rfl
@[simp] theorem skipIf_ST (c : Bool) (s : State) : (skipIf c s).ST = s.ST := rfl
@[simp] theorem skipIf_screen (c : Bool) (s : State) : (skipIf c s).screen = s.screen := rfl
@[simp] theorem skipIf_keys (c : Bool) (s : State) : (skipIf c s).keys = s.keys := rfl
@[simp] theorem skipIf_currentOpcode (c : Bool) (s : State) : (skipIf c s).currentOpcode = s.currentOpcode := rfl
@[simp] theorem skipIf_redrawRequested (c : Bool) (s : State) : (skipIf c s).redrawRequested = s.redrawRequested := rfl
@[simp] theorem skipIf_pixelChangeQueue (c : Bool) (s : State) : (skipIf c s).pixelChangeQueue = s.pixelChangeQueue := rfl
@[simp] theorem skipIf_fault (c : Bool) (s : State) : (skipIf c s).fault = s.fault := rfl
@[simp] theorem skipIf_events (c : Bool) (s : State) : (skipIf c s).events = s.events := rfl
@[simp] theorem skipIf_rndCount (c : Bool) (s : State) : (skipIf c s).rndCount = s.rndCount := rfl

@[simp] theorem writeByte_memory (s : State) (a : Nat) (v : Byte) : (writeByte s a v).memory = Memory.write s.memory a v := rfl
@[simp] theorem writeByte_V (s : State) (a : Nat) (v : Byte) : (writeByte s a v).V = s.V := rfl
@[simp] theorem writeByte_I (s : State) (a : Nat) (v : Byte) : (writeByte s a v).I = s.I := rfl
@[simp] theorem writeByte_pc (s : State) (a : Nat) (v : Byte) : (writeByte s a v).pc = s.pc := rfl
@[simp] theorem writeByte_stack (s : State) (a : Nat) (v : Byte) : (writeByte s a v).stack = s.stack := rfl
@[simp] theorem writeByte_sp (s : State) (a : Nat) (v : Byte) : (writeByte s a v).sp = s.sp := rfl
@[simp] theorem writeByte_DT (s : State) (a : Nat) (v : Byte) : (writeByte s a v).DT = s.DT := rfl
@[simp] theorem writeByte_ST (s : State) (a : Nat) (v : Byte) : (writeByte s a v).ST = s.ST := rfl
@[simp] theorem writeByte_screen (s : State) (a : Nat) (v : Byte) : (writeByte s a v).screen = s.screen := rfl
@[simp] theorem writeByte_keys (s : State) (a : Nat) (v : Byte) : (writeByte s a v).keys = s.keys := rfl
@[simp] theorem writeByte_currentOpcode (s : State) (a : Nat) (v : Byte) : (writeByte s a v).currentOpcode = s.currentOpcode := rfl
@[simp] theorem writeByte_redrawRequested (s : State) (a : Nat) (v : Byte) : (writeByte s a v).redrawRequested = s.redrawRequested := rfl
@[simp] theorem writeByte_pixelChangeQueue (s : State) (a : Nat) (v : Byte) : (writeByte s a v).pixelChangeQueue = s.pixelChangeQueue := rfl
@[simp] theorem writeByte_fault (s : State) (a : Nat) (v : Byte) : (writeByte s a v).fault = s.fault := rfl
@[simp] theorem writeByte_events (s : State) (a : Nat) (v : Byte) : (writeByte s a v).events = s.events := rfl
@[simp] theorem writeByte_rndCount (s : State) (a : Nat) (v : Byte) : (writeByte s a v).rndCount = s.rndCount := rfl

@[simp] theorem emit_memory (s : State) (e : Event) : (emit s e).memory = s.memory := rfl
@[simp] theorem emit_V (s : State) (e : Event) : (emit s e).V = s.V := rfl
@[simp] theorem emit_I (s : State) (e : Event) : (emit s e).I = s.I := rfl
@[simp] theorem emit_pc (s : State) (e : Event) : (emit s e).pc = s.pc := rfl
@[simp] theorem emit_stack (s : State) (e : Event) : (emit s e).stack = s.stack := rfl
@[simp] theorem emit_sp (s : State) (e : Event) : (emit s e).sp = s.sp := rfl
@[simp] theorem emit_DT (s : State) (e : Event) : (emit s e).DT = s.DT := rfl
@[simp] theorem emit_ST (s : State) (e : Event) : (emit s e).ST = s.ST := rfl
@[simp] theorem emit_screen (s : State) (e : Event) : (emit s e).screen = s.screen := rfl
@[simp] theorem emit_keys (s : State) (e : Event) : (emit s e).keys = s.keys := rfl
@[simp] theorem emit_currentOpcode (s : State) (e : Event) : (emit s e).currentOpcode = s.currentOpcode := rfl
@[simp] theorem emit_redrawRequested (s : State) (e : Event) : (emit s e).redrawRequested = s.redrawRequested := rfl
@[simp] theorem emit_pixelChangeQueue (s : State) (e : Event) : (emit s e).pixelChangeQueue = s.pixelChangeQueue := rfl
@[simp] theorem emit_fault (s : State) (e : Event) : (emit s e).fault = s.fault := rfl
@[simp] theorem emit_events (s : State) (e : Event) : (emit s e).events = s.events ++ [e] := rfl
@[simp] theorem emit_rndCount (s : State) (e : Event) : (emit s e).rndCount = s.rndCount := rfl

@[simp] theorem raise_memory (s : State) (f : CoreFault) : (raise s f).memory = s.memory := rfl
@[simp] theorem raise_V (s : State) (f : CoreFault) : (raise s f).V = s.V := rfl
@[simp] theorem raise_I (s : State) (f : CoreFault) : (raise s f).I = s.I := rfl
@[simp] theorem raise_pc (s : State) (f : CoreFault) : (raise s f).pc = s.pc := rfl
@[simp] theorem raise_stack (s : State) (f : CoreFault) : (raise s f).stack = s.stack := rfl
@[simp] theorem raise_sp (s : State) (f : CoreFault) : (raise s f).sp = s.sp := rfl
@[simp] theorem raise_DT (s : State) (f : CoreFault) : (raise s f).DT = s.DT := rfl
@[simp] theorem raise_ST (s : State) (f : CoreFault) : (raise s f).ST = s.ST := rfl
@[simp] theorem raise_screen (s : State) (f : CoreFault) : (raise s f).screen = s.screen := rfl
@[simp] theorem raise_keys (s : State) (f : CoreFault) : (raise s f).keys = s.keys := rfl
@[simp] theorem raise_currentOpcode (s : State) (f : CoreFault) : (raise s f).currentOpcode = s.currentOpcode := rfl
@[simp] theorem raise_redrawRequested (s : State) (f : CoreFault) : (raise s f).redrawRequested = s.redrawRequested := rfl
@[simp] theorem raise_pixelChangeQueue (s : State) (f : CoreFault) : (raise s f).pixelChangeQueue = s.pixelChangeQueue := rfl
@[simp] theorem raise_fault (s : State) (f : CoreFault) : (raise s f).fault = some f := rfl
@[simp] theorem raise_events (s : State) (f : CoreFault) : (raise s f).events = s.events := rfl
@[simp] theorem raise_rndCount (s : State) (f : CoreFault) : (raise s f).rndCount = s.rndCount := rfl

@[simp] theorem setFlagThenV_memory (s : State) (x : Reg) (b : Bool) (v : Byte) : (setFlagThenV s x b v).memory = s.memory := rfl
@[simp] theorem setFlagThenV_V (s : State) (x : Reg) (b : Bool) (v : Byte) : (setFlagThenV s x b v).V = (s.V.set VF (flagByte b)).set x v := rfl
@[simp] theorem setFlagThenV_I (s : State) (x : Reg) (b : Bool) (v : Byte) : (setFlagThenV s x b v).I = s.I := rfl
@[simp] theorem setFlagThenV_pc (s : State) (x : Reg) (b : Bool) (v : Byte) : (setFlagThenV s x b v).pc = s.pc := rfl
@[simp] theorem setFlagThenV_stack (s : State) (x : Reg) (b : Bool) (v : Byte) : (setFlagThenV s x b v).stack = s.stack := rfl
@[simp] theorem setFlagThenV_sp (s : State) (x : Reg) (b : Bool) (v : Byte) : (setFlagThenV s x b v).sp = s.sp := rfl
@[simp] theorem setFlagThenV_DT (s : State) (x : Reg) (b : Bool) (v : Byte) : (setFlagThenV s x b v).DT = s.DT := rfl
@[simp] theorem setFlagThenV_ST (s : State) (x : Reg) (b : Bool) (v : Byte) : (setFlagThenV s x b v).ST = s.ST := rfl
@[simp] theorem setFlagThenV_screen (s : State) (x : Reg) (b : Bool) (v : Byte) : (setFlagThenV s x b v).screen = s.screen := rfl
@[simp] theorem setFlagThenV_keys (s : State) (x : Reg) (b : Bool) (v : Byte) : (setFlagThenV s x b v).keys = s.keys := rfl
@[simp] theorem setFlagThenV_currentOpcode (s : State) (x : Reg) (b : Bool) (v : Byte) : (setFlagThenV s x b v).currentOpcode = s.currentOpcode := rfl
@[simp] theorem setFlagThenV_redrawRequested (s : State) (x : Reg) (b : Bool) (v : Byte) : (setFlagThenV s x b v).redrawRequested = s.redrawRequested := rfl
@[simp] theorem setFlagThenV_pixelChangeQueue (s : State) (x : Reg) (b : Bool) (v : Byte) : (setFlagThenV s x b v).pixelChangeQueue = s.pixelChangeQueue := rfl
@[simp] theorem setFlagThenV_fault (s : State) (x : Reg) (b : Bool) (v : Byte) : (setFlagThenV s x b v).fault = s.fault := rfl
@[simp] theorem setFlagThenV_events (s : State) (x : Reg) (b : Bool) (v : Byte) : (setFlagThenV s x b v).events = s.events := rfl
@[simp] theorem setFlagThenV_rndCount (s : State) (x : Reg) (b : Bool) (v : Byte) : (setFlagThenV s x b v).rndCount = s.rndCount := rfl

@[simp] theorem beginStep_memory (s : State) : (beginStep s).memory = s.memory := rfl
@[simp] theorem beginStep_V (s : State) : (beginStep s).V = s.V := rfl
@[simp] theorem beginStep_I (s : State) : (beginStep s).I = s.I := rfl
@[simp] theorem beginStep_pc (s : State) : (beginStep s).pc = s.pc := rfl
@[simp] theorem beginStep_stack (s : State) : (beginStep s).stack = s.stack := rfl
@[simp] theorem beginStep_sp (s : State) : (beginStep s).sp = s.sp := rfl
@[simp] theorem beginStep_DT (s : State) : (beginStep s).DT = s.DT := rfl
@[simp] theorem beginStep_ST (s : State) : (beginStep s).ST = s.ST := rfl
@[simp] theorem beginStep_screen (s : State) : (beginStep s).screen = s.screen := rfl
@[simp] theorem beginStep_keys (s : State) : (beginStep s).keys = s.keys := rfl
@[simp] theorem beginStep_currentOpcode (s : State) : (beginStep s).currentOpcode = s.currentOpcode := rfl
@[simp] theorem beginStep_redrawRequested (s : State) : (beginStep s).redrawRequested = s.redrawRequested := rfl
@[simp] theorem beginStep_pixelChangeQueue (s : State) : (beginStep s).pixelChangeQueue = s.pixelChangeQueue := rfl
@[simp] theorem beginStep_fault (s : State) : (beginStep s).fault = s.fault := rfl
@[simp] theorem beginStep_events (s : State) : (beginStep s).events = [] := rfl
@[simp] theorem beginStep_rndCount (s : State) : (beginStep s).rndCount = s.rndCount := rfl

@[simp] theorem latchOpcode_memory (s : State) (w : Word) : (latchOpcode s w).memory = s.memory := rfl
@[simp] theorem latchOpcode_V (s : State) (w : Word) : (latchOpcode s w).V = s.V := rfl
@[simp] theorem latchOpcode_I (s : State) (w : Word) : (latchOpcode s w).I = s.I := rfl
@[simp] theorem latchOpcode_pc (s : State) (w : Word) : (latchOpcode s w).pc = s.pc := rfl
@[simp] theorem latchOpcode_stack (s : State) (w : Word) : (latchOpcode s w).stack = s.stack := rfl
@[simp] theorem latchOpcode_sp (s : State) (w : Word) : (latchOpcode s w).sp = s.sp := rfl
@[simp] theorem latchOpcode_DT (s : State) (w : Word) : (latchOpcode s w).DT = s.DT := rfl
@[simp] theorem latchOpcode_ST (s : State) (w : Word) : (latchOpcode s w).ST = s.ST := rfl
@[simp] theorem latchOpcode_screen (s : State) (w : Word) : (latchOpcode s w).screen = s.screen := rfl
@[simp] theorem latchOpcode_keys (s : State) (w : Word) : (latchOpcode s w).keys = s.keys := rfl
@[simp] theorem latchOpcode_currentOpcode (s : State) (w : Word) : (latchOpcode s w).currentOpcode = w := rfl
@[simp] theorem latchOpcode_redrawRequested (s : State) (w : Word) : (latchOpcode s w).redrawRequested = s.redrawRequested := rfl
@[simp] theorem latchOpcode_pixelChangeQueue (s : State) (w : Word) : (latchOpcode s w).pixelChangeQueue = s.pixelChangeQueue := rfl
@[simp] theorem latchOpcode_fault (s : State) (w : Word) : (latchOpcode s w).fault = s.fault := rfl
@[simp] theorem latchOpcode_events (s : State) (w : Word) : (latchOpcode s w).events = s.events := rfl
@[simp] theorem latchOpcode_rndCount (s : State) (w : Word) : (latchOpcode s w).rndCount = s.rndCount := rfl

@[simp] theorem resetCore_memory (s : State) : (resetCore s).memory = State.reset.memory := rfl
@[simp] theorem resetCore_V (s : State) : (resetCore s).V = State.reset.V := rfl
@[simp] theorem resetCore_I (s : State) : (resetCore s).I = State.reset.I := rfl
@[simp] theorem resetCore_pc (s : State) : (resetCore s).pc = State.reset.pc := rfl
@[simp] theorem resetCore_stack (s : State) : (resetCore s).stack = State.reset.stack := rfl
@[simp] theorem resetCore_sp (s : State) : (resetCore s).sp = State.reset.sp := rfl
@[simp] theorem resetCore_DT (s : State) : (resetCore s).DT = State.reset.DT := rfl
@[simp] theorem resetCore_ST (s : State) : (resetCore s).ST = State.reset.ST := rfl
@[simp] theorem resetCore_screen (s : State) : (resetCore s).screen = State.reset.screen := rfl
@[simp] theorem resetCore_keys (s : State) : (resetCore s).keys = State.reset.keys := rfl
@[simp] theorem resetCore_currentOpcode (s : State) : (resetCore s).currentOpcode = State.reset.currentOpcode := rfl
@[simp] theorem resetCore_redrawRequested (s : State) : (resetCore s).redrawRequested = State.reset.redrawRequested := rfl
@[simp] theorem resetCore_pixelChangeQueue (s : State) : (resetCore s).pixelChangeQueue = State.reset.pixelChangeQueue := rfl
@[simp] theorem resetCore_fault (s : State) : (resetCore s).fault = State.reset.fault := rfl
@[simp] theorem resetCore_events (s : State) : (resetCore s).events = State.reset.events := rfl
@[simp] theorem resetCore_rndCount (s : State) : (resetCore s).rndCount = s.rndCount := rfl

end Sys2Proof.Machine
end

