-- ==== Sys2Proof/Laws/Ops.lean ====
section
/-! SUPPORT. What each shared operation can do, said once: the register and memory reads after an update, and the
checks that fault. -/

namespace Sys2Proof.Machine

/-- A register reads what was written to it (R20). -/
@[simp] theorem getV_setV_same (s : State) (i : Reg) (v : Byte) : getV (setV s i v) i = v := by
  simp [getV, setV]

/-- Writing a register leaves the others alone (R20). -/
theorem getV_setV_other (s : State) (i r : Reg) (v : Byte) (h : r ≠ i) : getV (setV s i v) r = getV s r := by
  have : (i : Nat) ≠ r := fun e => h (Fin.ext e.symm)
  simp [getV, setV, this]

/-- A register after a write of a register. -/
theorem getV_setV (s : State) (i r : Reg) (v : Byte) : getV (setV s i v) r = if r = i then v else getV s r := by
  by_cases h : r = i
  · subst h; simp
  · simp [h, getV_setV_other s i r v h]

@[simp] theorem getV_advance (s : State) (k : Nat) (r : Reg) : getV (advance s k) r = getV s r := rfl
@[simp] theorem getV_skipIf (c : Bool) (s : State) (r : Reg) : getV (skipIf c s) r = getV s r := rfl
@[simp] theorem getV_setI (s : State) (v : Word) (r : Reg) : getV (setI s v) r = getV s r := rfl
@[simp] theorem getV_setPc (s : State) (p : Word) (r : Reg) : getV (setPc s p) r = getV s r := rfl
@[simp] theorem getV_writeByte (s : State) (a : Nat) (v : Byte) (r : Reg) : getV (writeByte s a v) r = getV s r := rfl
@[simp] theorem getV_emit (s : State) (e : Event) (r : Reg) : getV (emit s e) r = getV s r := rfl
@[simp] theorem getV_raise (s : State) (f : CoreFault) (r : Reg) : getV (raise s f) r = getV s r := rfl

/-- The result of a flag-writing instruction, at its destination (R160). -/
@[simp] theorem getV_setFlagThenV_dest (s : State) (x : Reg) (b : Bool) (v : Byte) :
    getV (setFlagThenV s x b v) x = v := by
  simp [setFlagThenV]

/-- The flag of a flag-writing instruction, when its destination is another register (R160). -/
theorem getV_setFlagThenV_flag (s : State) (x : Reg) (b : Bool) (v : Byte) (h : x ≠ VF) :
    getV (setFlagThenV s x b v) VF = flagByte b := by
  rw [setFlagThenV, getV_setV_other _ _ _ _ (Ne.symm h), getV_setV_same]

/-- A flag-writing instruction leaves every register but the flag and the destination (R22). -/
theorem getV_setFlagThenV_other (s : State) (x r : Reg) (b : Bool) (v : Byte) (hx : r ≠ x) (hf : r ≠ VF) :
    getV (setFlagThenV s x b v) r = getV s r := by
  rw [setFlagThenV, getV_setV_other _ _ _ _ hx, getV_setV_other _ _ _ _ hf]

/-- A byte of memory after a store (R68). -/
theorem readByte_writeByte (s : State) (a b : Nat) (v : Byte) :
    readByte (writeByte s a v) b = if b = a then v else readByte s b := Memory.read_write _ _ _ _

@[simp] theorem readByte_setV (s : State) (i : Reg) (v : Byte) (a : Nat) : readByte (setV s i v) a = readByte s a := rfl
@[simp] theorem readByte_advance (s : State) (k a : Nat) : readByte (advance s k) a = readByte s a := rfl
@[simp] theorem readByte_emit (s : State) (e : Event) (a : Nat) : readByte (emit s e) a = readByte s a := rfl
@[simp] theorem readByte_beginStep (s : State) (a : Nat) : readByte (beginStep s) a = readByte s a := rfl
@[simp] theorem readByte_latchOpcode (s : State) (w : Word) (a : Nat) : readByte (latchOpcode s w) a = readByte s a := rfl

/-- A bounds check either lets the effect through or faults with no effect (R66, R222). -/
theorem checkMem_cases {s : State} {h : Nat} {done t : State} (ht : checkMem s h done = .next t) :
    (h ≤ 4095 ∧ t = done) ∨ (4095 < h ∧ t = raise s (.memOutOfBounds h)) := by
  unfold checkMem at ht
  split at ht <;> rename_i hc <;> injection ht with ht <;> simp only [Config.memSize] at hc
  · exact .inl ⟨by omega, ht.symm⟩
  · exact .inr ⟨by omega, ht.symm⟩

theorem checkMem_ok (s done : State) (h : Nat) (hh : h ≤ 4095) : checkMem s h done = .next done := by
  simp only [checkMem, Config.memSize]
  exact if_pos (by omega)

theorem checkMem_fault (s done : State) (h : Nat) (hh : 4095 < h) :
    checkMem s h done = .next (raise s (.memOutOfBounds h)) := by
  simp only [checkMem, Config.memSize]
  exact if_neg (by omega)

/-- A key-index check either gives the key or faults with no effect (R197, R226). -/
theorem checkKey_cases {s : State} {v : Byte} {done : Key → State} {t : State} (ht : checkKey s v done = .next t) :
    (∃ h : v.toNat < 16, t = done ⟨v.toNat, h⟩) ∨ (15 < v.toNat ∧ t = raise s (.keyIndexOutOfRange v)) := by
  unfold checkKey at ht
  split at ht <;> rename_i hc <;> injection ht with ht
  · exact .inl ⟨hc, ht.symm⟩
  · exact .inr ⟨by omega, ht.symm⟩

/-- A push either stores at `sp` and increments it, or faults on a full stack with no effect (R142, R223). -/
theorem pushStack_cases {s : State} {v : Word} {done : State → State} {t : State}
    (ht : pushStack s v done = .next t) :
    (∃ h : s.sp.val < 16,
      t = done { s with stack := s.stack.set s.sp.val v, sp := ⟨s.sp.val + 1, by omega⟩ }) ∨
    (s.sp.val = 16 ∧ t = raise s (.stackOverflow s.pc)) := by
  unfold pushStack at ht
  split at ht <;> rename_i hc <;> injection ht with ht
  · exact .inl ⟨hc, ht.symm⟩
  · exact .inr ⟨by have := s.sp.isLt; omega, ht.symm⟩

/-- A pop either gives the top entry and decrements `sp`, or faults on an empty stack with no effect (R143, R225). -/
theorem popStack_cases {s : State} {done : Word → State → State} {t : State} (ht : popStack s done = .next t) :
    (∃ h : 0 < s.sp.val,
      t = done (s.stack[s.sp.val - 1]'(by omega)) { s with sp := ⟨s.sp.val - 1, by omega⟩ }) ∨
    (s.sp.val = 0 ∧ t = raise s (.stackUnderflow s.pc)) := by
  unfold popStack at ht
  split at ht <;> rename_i hc <;> injection ht with ht
  · exact .inl ⟨hc, ht.symm⟩
  · exact .inr ⟨by omega, ht.symm⟩

/-- Each check answers a next state, fault or not. -/
theorem checkMem_next (s done : State) (h : Nat) : ∃ t, checkMem s h done = .next t := by
  unfold checkMem; split <;> exact ⟨_, rfl⟩

theorem checkKey_next (s : State) (v : Byte) (done : Key → State) : ∃ t, checkKey s v done = .next t := by
  unfold checkKey; split <;> exact ⟨_, rfl⟩

theorem pushStack_next (s : State) (v : Word) (done : State → State) : ∃ t, pushStack s v done = .next t := by
  unfold pushStack; split <;> exact ⟨_, rfl⟩

theorem popStack_next (s : State) (done : Word → State → State) : ∃ t, popStack s done = .next t := by
  unfold popStack; split <;> exact ⟨_, rfl⟩

end Sys2Proof.Machine
end

