-- ==== Sys2Proof/Laws/Draw.lean ====
section
/-! SUPPORT. What drawing does, said once: a sprite is drawn by flipping the pixels at a list of distinct positions. -/

namespace Sys2Proof.Machine

/-- `t` differs from `s` only where drawing may write: registers, screen, queue and events (R201). -/
def DrawFrame (s t : State) : Prop :=
  t = { s with V := t.V, screen := t.screen, pixelChangeQueue := t.pixelChangeQueue, events := t.events }

theorem DrawFrame.refl (s : State) : DrawFrame s s := rfl

theorem DrawFrame.trans {s t u : State} (h : DrawFrame s t) (k : DrawFrame t u) : DrawFrame s u := by
  unfold DrawFrame at *
  rw [k, h]

/-- The pixel a screen write leaves. -/
theorem pixelAt_flip (s t : State) (xx : Fin 64) (yy : Fin 32) (v : Bool)
    (h : t.screen = s.screen.set yy (s.screen[yy].set xx v)) (a : Fin 64) (b : Fin 32) :
    pixelAt t a b = if a = xx ∧ b = yy then v else pixelAt s a b := by
  unfold pixelAt
  rw [h]
  by_cases hb : b = yy
  · subst hb
    by_cases ha : a = xx
    · subst ha; simp
    · have : (xx : Nat) ≠ a := fun e => ha (Fin.ext e.symm)
      simp [ha, this]
  · have : (yy : Nat) ≠ b := fun e => hb (Fin.ext e.symm)
    simp [hb, this]

theorem flipPixel_frame (s : State) (xx : Fin 64) (yy : Fin 32) : DrawFrame s (flipPixel s xx yy) := by
  simp only [DrawFrame, flipPixel]
  split <;> rfl

theorem flipPixel_screen (s : State) (xx : Fin 64) (yy : Fin 32) :
    (flipPixel s xx yy).screen = s.screen.set yy (s.screen[yy].set xx (!pixelAt s xx yy)) := by
  simp only [flipPixel]
  split <;> rfl

theorem flipPixel_queue (s : State) (xx : Fin 64) (yy : Fin 32) :
    (flipPixel s xx yy).pixelChangeQueue = s.pixelChangeQueue ++ [⟨xx, yy, !pixelAt s xx yy⟩] := by
  simp only [flipPixel]
  split <;> rfl

theorem flipPixel_events (s : State) (xx : Fin 64) (yy : Fin 32) :
    (flipPixel s xx yy).events = s.events ++ [.pixel ⟨xx, yy, !pixelAt s xx yy⟩] := by
  simp only [flipPixel]
  split <;> rfl

/-- A flip sets `VF` when the pixel was on, and writes no other register (R201). -/
theorem getV_flipPixel (s : State) (xx : Fin 64) (yy : Fin 32) (r : Reg) :
    getV (flipPixel s xx yy) r = if r = VF ∧ pixelAt s xx yy = true then 1 else getV s r := by
  unfold flipPixel
  by_cases h : pixelAt s xx yy = true
  · simp only [h, if_true, and_true]
    by_cases hr : r = VF
    · subst hr
      rw [if_pos rfl]
      exact getV_setV_same _ VF 1
    · rw [if_neg hr]
      exact getV_setV_other _ VF r 1 hr
  · simp only [h, Bool.false_eq_true, if_false, and_false]
    rfl

/-- The record of a flip at a position, if the position is on the screen (R203). -/
def flipRecord (s : State) (p : Nat × Nat) : Option PixelRecord :=
  if h : p.1 < 64 ∧ p.2 < 32 then
    some ⟨⟨p.1, h.1⟩, ⟨p.2, h.2⟩, !pixelAt s ⟨p.1, h.1⟩ ⟨p.2, h.2⟩⟩
  else none

/-- Flip the pixels at a list of positions. -/
def drawAt (s : State) (l : List (Nat × Nat)) : State := l.foldl (fun t p => drawPixel t p.1 p.2) s

theorem drawPixel_frame (s : State) (xx yy : Nat) : DrawFrame s (drawPixel s xx yy) := by
  unfold drawPixel
  split
  · exact flipPixel_frame _ _ _
  · exact DrawFrame.refl _

theorem drawAt_frame (l : List (Nat × Nat)) (s : State) : DrawFrame s (drawAt s l) := by
  induction l generalizing s with
  | nil => exact DrawFrame.refl _
  | cons p l ih => exact (drawPixel_frame s p.1 p.2).trans (ih _)

theorem pixelAt_drawPixel (s : State) (xx yy : Nat) (a : Fin 64) (b : Fin 32) :
    pixelAt (drawPixel s xx yy) a b = (pixelAt s a b ^^ decide ((xx, yy) = (a.val, b.val))) := by
  unfold drawPixel
  split <;> rename_i h
  · rw [pixelAt_flip s _ _ _ _ (flipPixel_screen _ _ _)]
    by_cases hp : (xx, yy) = (a.val, b.val)
    · obtain ⟨h1, h2⟩ := Prod.mk.injEq .. ▸ hp
      have ha : a = ⟨xx, h.1⟩ := Fin.ext h1.symm
      have hb : b = ⟨yy, h.2⟩ := Fin.ext h2.symm
      simp [ha, hb]
    · have : ¬(a = ⟨xx, h.1⟩ ∧ b = ⟨yy, h.2⟩) := by
        rintro ⟨rfl, rfl⟩; exact hp rfl
      simp [this, hp]
  · have : ¬(xx, yy) = (a.val, b.val) := by
      intro hp
      obtain ⟨h1, h2⟩ := Prod.mk.injEq .. ▸ hp
      have := a.isLt
      have := b.isLt
      exact h ⟨by omega, by omega⟩
    simp [this]

/-- After flips at distinct positions a pixel is flipped exactly when its position is listed. -/
theorem pixelAt_drawAt (l : List (Nat × Nat)) (s : State) (hl : l.Nodup) (a : Fin 64) (b : Fin 32) :
    pixelAt (drawAt s l) a b = (pixelAt s a b ^^ decide ((a.val, b.val) ∈ l)) := by
  induction l generalizing s with
  | nil => simp [drawAt]
  | cons p l ih =>
    have hp := List.nodup_cons.mp hl
    have e : drawAt s (p :: l) = drawAt (drawPixel s p.1 p.2) l := rfl
    rw [e, ih _ hp.2, pixelAt_drawPixel]
    by_cases h : p = (a.val, b.val)
    · subst h; simp [hp.1]
    · have h' : (a.val, b.val) ≠ p := Ne.symm h
      simp [h, h']

/-- A flip at one position leaves the record of another as it was. -/
theorem flipRecord_drawPixel (s : State) (p q : Nat × Nat) (h : q ≠ p) :
    flipRecord (drawPixel s p.1 p.2) q = flipRecord s q := by
  unfold flipRecord
  split
  · rw [pixelAt_drawPixel]
    simp [Ne.symm h]
  · rfl

/-- The records of flips at distinct positions, in their order, with values from the screen before (R202). -/
theorem drawAt_queue (l : List (Nat × Nat)) (s : State) (hl : l.Nodup) :
    (drawAt s l).pixelChangeQueue = s.pixelChangeQueue ++ l.filterMap (flipRecord s) ∧
    (drawAt s l).events = s.events ++ (l.filterMap (flipRecord s)).map Event.pixel := by
  induction l generalizing s with
  | nil => simp [drawAt]
  | cons p l ih =>
    have hp := List.nodup_cons.mp hl
    have e : drawAt s (p :: l) = drawAt (drawPixel s p.1 p.2) l := rfl
    have hc : l.filterMap (flipRecord (drawPixel s p.1 p.2)) = l.filterMap (flipRecord s) :=
      List.filterMap_congr fun q hq => flipRecord_drawPixel s p q fun h => hp.1 (h ▸ hq)
    obtain ⟨hq, he⟩ := ih (drawPixel s p.1 p.2) hp.2
    rw [e, hq, he, hc]
    by_cases hg : p.1 < 64 ∧ p.2 < 32
    · have hr : flipRecord s p = some ⟨⟨p.1, hg.1⟩, ⟨p.2, hg.2⟩, !pixelAt s ⟨p.1, hg.1⟩ ⟨p.2, hg.2⟩⟩ := dif_pos hg
      have hd : drawPixel s p.1 p.2 = flipPixel s ⟨p.1, hg.1⟩ ⟨p.2, hg.2⟩ := dif_pos hg
      rw [List.filterMap_cons_some hr, hd, flipPixel_queue, flipPixel_events]
      simp
    · have hr : flipRecord s p = none := dif_neg hg
      have hd : drawPixel s p.1 p.2 = s := dif_neg hg
      rw [List.filterMap_cons_none hr, hd]
      exact ⟨rfl, rfl⟩

/-- Drawing writes no register but `VF` (R22). -/
theorem getV_drawAt_other (l : List (Nat × Nat)) (s : State) (r : Reg) (h : r ≠ VF) :
    getV (drawAt s l) r = getV s r := by
  induction l generalizing s with
  | nil => rfl
  | cons p l ih =>
    have e : drawAt s (p :: l) = drawAt (drawPixel s p.1 p.2) l := rfl
    rw [e, ih]
    unfold drawPixel
    split
    · rw [getV_flipPixel]; simp [h]
    · rfl

/-- `VF` after flips at distinct positions: 1 when a listed pixel was on, else what it was (R201). -/
theorem getV_drawAt_VF (l : List (Nat × Nat)) (s : State) (hl : l.Nodup) :
    ((∃ (a : Fin 64) (b : Fin 32), (a.val, b.val) ∈ l ∧ pixelAt s a b = true) → getV (drawAt s l) VF = 1) ∧
    ((∀ (a : Fin 64) (b : Fin 32), (a.val, b.val) ∈ l → pixelAt s a b = false) → getV (drawAt s l) VF = getV s VF) := by
  induction l generalizing s with
  | nil => simp [drawAt]
  | cons p l ih =>
    have hp := List.nodup_cons.mp hl
    have e : drawAt s (p :: l) = drawAt (drawPixel s p.1 p.2) l := rfl
    have hsame : ∀ (a : Fin 64) (b : Fin 32), (a.val, b.val) ∈ l →
        pixelAt (drawPixel s p.1 p.2) a b = pixelAt s a b := by
      intro a b hab
      rw [pixelAt_drawPixel]
      have : ¬(p.1, p.2) = (a.val, b.val) := fun h => hp.1 (by rw [show p = (a.val, b.val) from h]; exact hab)
      simp [this]
    have hvf : getV (drawPixel s p.1 p.2) VF =
        if h : p.1 < 64 ∧ p.2 < 32 then
          (if pixelAt s ⟨p.1, h.1⟩ ⟨p.2, h.2⟩ = true then 1 else getV s VF) else getV s VF := by
      unfold drawPixel
      split
      · rw [getV_flipPixel]; simp
      · rfl
    obtain ⟨ihl, ihr⟩ := ih (drawPixel s p.1 p.2) hp.2
    rw [e]
    constructor
    · rintro ⟨a, b, hm, hon⟩
      rcases List.mem_cons.mp hm with rfl | hm
      · by_cases hany : ∃ (a' : Fin 64) (b' : Fin 32), (a'.val, b'.val) ∈ l ∧ pixelAt s a' b' = true
        · obtain ⟨a', b', h1, h2⟩ := hany
          exact ihl ⟨a', b', h1, (hsame a' b' h1).trans h2⟩
        · rw [ihr, hvf]
          · have ha : (⟨a.val, a.isLt⟩ : Fin 64) = a := rfl
            simp [hon]
          · intro a' b' h1
            rw [hsame a' b' h1]
            exact Bool.eq_false_iff.mpr fun h2 => hany ⟨a', b', h1, h2⟩
      · exact ihl ⟨a, b, hm, (hsame a b hm).trans hon⟩
    · intro hall
      rw [ihr fun a b h => (hsame a b h).trans (hall a b (List.mem_cons_of_mem _ h)), hvf]
      split <;> rename_i hg
      · have := hall ⟨p.1, hg.1⟩ ⟨p.2, hg.2⟩ (by simp)
        simp [this]
      · rfl

/-! ### A sprite as a list of positions -/

/-- The positions of a sprite row's set bits, left to right. -/
def rowPositions (b : Byte) (vx yy : Nat) : List (Nat × Nat) :=
  ((List.range 8).filter (fun c => b.getLsbD (7 - c))).map (fun c => (vx + c, yy))

/-- The positions of a sprite's set bits, rows top to bottom (R202). -/
def spritePositions (s : State) (vx vy n : Nat) : List (Nat × Nat) :=
  (List.range n).flatMap (fun r => rowPositions (readByte s (s.I.toNat + r)) vx (vy + r))

theorem drawRow_eq (s : State) (b : Byte) (vx yy : Nat) : drawRow s b vx yy = drawAt s (rowPositions b vx yy) := by
  unfold drawRow rowPositions drawAt
  generalize List.range 8 = l
  induction l generalizing s with
  | nil => rfl
  | cons c l ih =>
    rw [List.foldl_cons, ih]
    by_cases h : b.getLsbD (7 - c) = true
    · simp [h]
    · simp [h]

/-- Drawing a sprite is flipping the pixels at its positions (R201). -/
theorem drawRows_eq (s : State) (vx vy n : Nat) : drawRows s vx vy n = drawAt s (spritePositions s vx vy n) := by
  unfold drawRows spritePositions
  generalize List.range n = l
  have key : ∀ t : State, t.memory = s.memory → t.I = s.I →
      l.foldl (fun t r => drawRow t (readByte t (effAddr t r)) vx (vy + r)) t =
      drawAt t (l.flatMap (fun r => rowPositions (readByte s (s.I.toNat + r)) vx (vy + r))) := by
    induction l with
    | nil => intro t _ _; rfl
    | cons r l ih =>
      intro t hm hI
      have hb : readByte t (effAddr t r) = readByte s (s.I.toNat + r) := by
        simp only [readByte, effAddr, hm, hI]
      have hf := drawAt_frame (rowPositions (readByte s (s.I.toNat + r)) vx (vy + r)) t
      rw [List.foldl_cons, hb, drawRow_eq, ih]
      · simp only [List.flatMap_cons, drawAt, List.foldl_append]
      · rw [hf]; exact hm
      · rw [hf]; exact hI
  exact key s rfl rfl

theorem mem_rowPositions (b : Byte) (vx yy : Nat) (p : Nat × Nat) :
    p ∈ rowPositions b vx yy ↔ vx ≤ p.1 ∧ p.1 < vx + 8 ∧ p.2 = yy ∧ b.getLsbD (7 - (p.1 - vx)) = true := by
  obtain ⟨a, c⟩ := p
  simp only [rowPositions, List.mem_map, List.mem_filter, List.mem_range, Prod.mk.injEq]
  constructor
  · rintro ⟨k, ⟨hk, hb⟩, rfl, rfl⟩
    refine ⟨by omega, by omega, rfl, ?_⟩
    rw [show vx + k - vx = k by omega]; exact hb
  · rintro ⟨h1, h2, h3, h4⟩
    exact ⟨a - vx, ⟨by omega, h4⟩, by omega, h3.symm⟩

/-- A position is drawn when it lies in the sprite's rectangle and its bit of the row's byte is set (R201). -/
theorem mem_spritePositions (s : State) (vx vy n : Nat) (p : Nat × Nat) :
    p ∈ spritePositions s vx vy n ↔
      vx ≤ p.1 ∧ p.1 < vx + 8 ∧ vy ≤ p.2 ∧ p.2 < vy + n ∧
        (readByte s (s.I.toNat + (p.2 - vy))).getLsbD (7 - (p.1 - vx)) = true := by
  simp only [spritePositions, List.mem_flatMap, List.mem_range, mem_rowPositions]
  constructor
  · rintro ⟨r, hr, h1, h2, h3, h4⟩
    refine ⟨h1, h2, by omega, by omega, ?_⟩
    rw [h3, show vy + r - vy = r by omega]; exact h4
  · rintro ⟨h1, h2, h3, h4, h5⟩
    exact ⟨p.2 - vy, by omega, h1, h2, by omega, h5⟩

theorem nodup_rowPositions (b : Byte) (vx yy : Nat) : (rowPositions b vx yy).Nodup := by
  refine List.Nodup.map ?_ (List.Nodup.filter _ List.nodup_range)
  intro a c h
  have := congrArg Prod.fst h
  simpa using this

/-- No position is drawn twice (R202). -/
theorem nodup_spritePositions (s : State) (vx vy n : Nat) : (spritePositions s vx vy n).Nodup := by
  unfold spritePositions
  refine List.nodup_flatMap.mpr ⟨fun r _ => nodup_rowPositions _ _ _, ?_⟩
  refine List.Pairwise.imp ?_ List.nodup_range
  intro r q hrq p hp hq
  have h1 := ((mem_rowPositions _ _ _ _).mp hp).2.2.1
  have h2 := ((mem_rowPositions _ _ _ _).mp hq).2.2.1
  omega

theorem drawRows_frame (s : State) (vx vy n : Nat) : DrawFrame s (drawRows s vx vy n) :=
  drawRows_eq s vx vy n ▸ drawAt_frame _ _

theorem getV_drawRows_other (s : State) (vx vy n : Nat) (r : Reg) (h : r ≠ VF) :
    getV (drawRows s vx vy n) r = getV s r := drawRows_eq s vx vy n ▸ getV_drawAt_other _ _ _ h

end Sys2Proof.Machine
end

