-- ==== Sys2Proof/Laws/Operands.lean ====
section
/-! SUPPORT. What the operand forms give: the registers of a bulk transfer, the least pressed key, and the states the
bulk transfers leave. -/

namespace Sys2Proof.Machine

/-- Every index is listed. -/
theorem mem_indices (i : Fin 16) : i ∈ indices := by
  revert i; decide

/-- A bulk transfer moves exactly the registers 0 to x (R183, R184). -/
theorem mem_regsUpTo (x r : Reg) : r ∈ regsUpTo x ↔ r ≤ x := by
  simp [regsUpTo, mem_indices]

/-- A bulk transfer moves each register once. -/
theorem nodup_regsUpTo (x : Reg) : (regsUpTo x).Nodup := by
  unfold regsUpTo
  exact List.Nodup.filter _ (by decide)

/-- With no key down there is no least pressed key (R194). -/
theorem lowestKey_none (s : State) : lowestKey s = none ↔ ∀ k : Key, s.keys[k] = false := by
  simp only [lowestKey, List.find?_eq_none, Bool.not_eq_true]
  exact ⟨fun h k => h k (mem_indices k), fun h k _ => h k⟩

/-- The least pressed key is down and no key below it is (R194). -/
theorem lowestKey_some {s : State} {k : Key} (h : lowestKey s = some k) :
    s.keys[k] = true ∧ ∀ j : Key, j < k → s.keys[j] = false := by
  refine ⟨by simpa using List.find?_some h, fun j hj => ?_⟩
  unfold lowestKey at h
  obtain ⟨_, l, r, hlr, hl⟩ := List.find?_eq_some_iff_append.mp h
  have hs : (indices.Pairwise (· < ·)) := by decide
  have hj' := mem_indices j
  rw [hlr] at hs hj'
  rcases List.mem_append.mp hj' with hj' | hj'
  · simpa using hl j hj'
  · have := List.pairwise_append.mp hs
    rcases List.mem_cons.mp hj' with rfl | hj'
    · exact absurd hj (lt_irrefl _)
    · exact absurd (List.rel_of_pairwise_cons this.2.1 hj') (not_lt.mpr (le_of_lt hj))

/-- A bulk store changes memory only. -/
theorem storeRegList_eq (l : List Reg) (s : State) : storeRegList s l = { s with memory := (storeRegList s l).memory } := by
  induction l generalizing s with
  | nil => rfl
  | cons i l ih =>
    have := ih (writeByte s (effAddr s i.val) (getV s i))
    simp only [storeRegList, List.foldl_cons] at this ⊢
    rw [this]
    rfl

/-- A bulk store leaves every address alone that is no listed register's (R183). -/
theorem readByte_storeRegList_other (l : List Reg) (s : State) (a : Nat) (h : ∀ r ∈ l, a ≠ s.I.toNat + r.val) :
    readByte (storeRegList s l) a = readByte s a := by
  induction l generalizing s with
  | nil => rfl
  | cons i l ih =>
    have e : storeRegList s (i :: l) = storeRegList (writeByte s (effAddr s i.val) (getV s i)) l := rfl
    have h1 := ih (writeByte s (effAddr s i.val) (getV s i)) fun r hr => h r (by simp [hr])
    rw [e, h1, readByte_writeByte, effAddr, if_neg (h i (by simp))]

/-- A bulk store leaves each listed register at its address (R183). -/
theorem readByte_storeRegList_mem (l : List Reg) (s : State) (hl : l.Nodup) (r : Reg) (hr : r ∈ l) :
    readByte (storeRegList s l) (s.I.toNat + r.val) = getV s r := by
  induction l generalizing s with
  | nil => simp at hr
  | cons i l ih =>
    have hi := List.nodup_cons.mp hl
    have e : storeRegList s (i :: l) = storeRegList (writeByte s (effAddr s i.val) (getV s i)) l := rfl
    rcases List.mem_cons.mp hr with rfl | hr
    · have h1 := readByte_storeRegList_other l (writeByte s (effAddr s r.val) (getV s r)) (s.I.toNat + r.val)
        fun q hq => by
          have : r.val ≠ q.val := fun hc => hi.1 (Fin.ext hc ▸ hq)
          simp only [writeByte_I]
          omega
      rw [e, h1, readByte_writeByte, effAddr, if_pos rfl]
    · exact e ▸ ih (writeByte s (effAddr s i.val) (getV s i)) hi.2 hr

/-- A bulk load changes registers only. -/
theorem loadRegList_eq (l : List Reg) (s : State) : loadRegList s l = { s with V := (loadRegList s l).V } := by
  induction l generalizing s with
  | nil => rfl
  | cons i l ih =>
    have := ih (setV s i (readByte s (effAddr s i.val)))
    simp only [loadRegList, List.foldl_cons] at this ⊢
    rw [this]
    rfl

/-- What a bulk load leaves in a register: the byte at `I + r`, or what it held (R184). -/
theorem getV_loadRegList (l : List Reg) (s : State) (r : Reg) :
    getV (loadRegList s l) r = if r ∈ l then readByte s (s.I.toNat + r.val) else getV s r := by
  induction l generalizing s with
  | nil => simp [loadRegList]
  | cons i l ih =>
    have e : loadRegList s (i :: l) = loadRegList (setV s i (readByte s (effAddr s i.val))) l := rfl
    rw [e, ih]
    by_cases hl : r ∈ l
    · simp [hl]
    · by_cases hi : r = i
      · subst hi; simp [hl, effAddr]
      · simp [hl, hi, getV_setV_other]

end Sys2Proof.Machine
end

