-- ==== Sys2Proof/Laws/PerInstr.lean ====
section
/-! SUPPORT. Per instruction: the canonical word selects the instruction's own row of the opcode map (R99, R100), and
an unknown opcode's word selects none. -/

namespace Sys2Proof.Laws.SelectsRow

/-- The canonical word of a well-formed instruction selects the instruction's own row of the opcode map; an unknown
opcode has no row, and its word selects none (R99, R101). -/
def Statement (i : Instr) : Prop :=
  i.wf = true →
    match opcodeMap[i.rowIndex]? with
    | some r => r.selects (encode i) = true
    | none => ∀ r ∈ opcodeMap, r.selects (encode i) = false

/-- Format NNN selects a row of the primary group. -/
theorem selects_encodeNNN (op : BitVec 4) (nnn : BitVec 12) (b : Nat) (hb : b < 65536) (h : op.toNat * 4096 = b) :
    (OpRow.mk 0xF000 (BitVec.ofNat 16 b)).selects (encodeNNN op nnn) = true := by
  rw [selects_F000 _ _ hb, encodeNNN_toNat]
  clear hb
  have := nnn.isLt
  subst h
  omega

/-- Format XNN selects a row of the primary group. -/
theorem selects_encodeXNN (op : BitVec 4) (x : Reg) (nn : Byte) (b : Nat) (hb : b < 65536) (h : op.toNat * 4096 = b) :
    (OpRow.mk 0xF000 (BitVec.ofNat 16 b)).selects (encodeXNN op x nn) = true := by
  rw [selects_F000 _ _ hb, encodeXNN_toNat]
  clear hb
  have := nn.isLt
  have := x.isLt
  subst h
  omega

/-- Format XNN selects a row of the primary group and the low nibble. -/
theorem selects_encodeXNN_n (op : BitVec 4) (x : Reg) (nn : Byte) (b : Nat) (hb : b < 65536)
    (h : op.toNat * 4096 + nn.toNat % 16 = b) :
    (OpRow.mk 0xF00F (BitVec.ofNat 16 b)).selects (encodeXNN op x nn) = true := by
  rw [selects_F00F _ _ hb, encodeXNN_toNat]
  clear hb
  have := nn.isLt
  have := x.isLt
  subst h
  omega

/-- Format XNN selects a row of the primary group and the low byte. -/
theorem selects_encodeXNN_nn (op : BitVec 4) (x : Reg) (nn : Byte) (b : Nat) (hb : b < 65536)
    (h : op.toNat * 4096 + nn.toNat = b) :
    (OpRow.mk 0xF0FF (BitVec.ofNat 16 b)).selects (encodeXNN op x nn) = true := by
  rw [selects_F0FF _ _ hb, encodeXNN_toNat]
  clear hb
  have := nn.isLt
  have := x.isLt
  subst h
  omega

/-- Format XYN selects a row of the primary group. -/
theorem selects_encodeXYN (op : BitVec 4) (x y : Reg) (n : BitVec 4) (b : Nat) (hb : b < 65536)
    (h : op.toNat * 4096 = b) : (OpRow.mk 0xF000 (BitVec.ofNat 16 b)).selects (encodeXYN op x y n) = true := by
  rw [selects_F000 _ _ hb, encodeXYN_toNat]
  clear hb
  have := n.isLt
  have := x.isLt
  have := y.isLt
  subst h
  omega

/-- Format XYN selects a row of the primary group and the low nibble. -/
theorem selects_encodeXYN_n (op : BitVec 4) (x y : Reg) (n : BitVec 4) (b : Nat) (hb : b < 65536)
    (h : op.toNat * 4096 + n.toNat = b) :
    (OpRow.mk 0xF00F (BitVec.ofNat 16 b)).selects (encodeXYN op x y n) = true := by
  rw [selects_F00F _ _ hb, encodeXYN_toNat]
  clear hb
  have := n.isLt
  have := x.isLt
  have := y.isLt
  subst h
  omega

/-- A word of R101's list selects no row of R99's map. -/
theorem not_selects_of_unknown (w : Word) (h : isUnknownWord w = true) (r : OpRow) (hr : r ∈ opcodeMap) :
    r.selects w = false := by
  have hw := w.isLt
  have hu : (w.toNat / 4096 = 0 ∧ w.toNat % 16 ≠ 0 ∧ w.toNat % 16 ≠ 14) ∨
      (w.toNat / 4096 = 8 ∧ 8 ≤ w.toNat % 16 ∧ w.toNat % 16 ≠ 14) ∨
      (w.toNat / 4096 = 14 ∧ w.toNat % 256 ≠ 0x9E ∧ w.toNat % 256 ≠ 0xA1) ∨
      (w.toNat / 4096 = 15 ∧ w.toNat % 16 ∈ [0, 1, 2, 4, 6, 0xB, 0xC, 0xD, 0xF]) ∨
      (w.toNat / 4096 = 15 ∧ w.toNat % 16 = 5 ∧ w.toNat / 16 % 16 ∉ [1, 5, 6]) := by
    unfold isUnknownWord at h
    simp only at h
    split at h
    · simp at h; omega
    · split at h
      · simp at h; omega
      · split at h
        · simp at h; omega
        · split at h
          · simp at h ⊢; omega
          · simp at h
  rw [Bool.eq_false_iff]
  intro hs
  simp only [List.mem_cons, List.not_mem_nil, or_false] at hu
  rcases selected_row w r hr hs with ⟨b, hb, he⟩ | ⟨b, hb, he⟩ | ⟨b, hb, he⟩ <;>
  simp only [List.mem_cons, List.not_mem_nil, or_false] at hb <;> omega

theorem cls : Statement (.cls) :=
  fun _ => (selects_F00F _ 0x0000 (by decide)).mpr (by decide)

theorem ret : Statement (.ret) :=
  fun _ => (selects_F00F _ 0x000E (by decide)).mpr (by decide)

theorem jp (nnn : BitVec 12) : Statement (.jp nnn) :=
  fun _ => selects_encodeNNN _ nnn 0x1000 (by decide) (by decide)

theorem call (nnn : BitVec 12) : Statement (.call nnn) :=
  fun _ => selects_encodeNNN _ nnn 0x2000 (by decide) (by decide)

theorem seImm (x : Reg) (nn : Byte) : Statement (.seImm x nn) :=
  fun _ => selects_encodeXNN _ x nn 0x3000 (by decide) (by decide)

theorem sneImm (x : Reg) (nn : Byte) : Statement (.sneImm x nn) :=
  fun _ => selects_encodeXNN _ x nn 0x4000 (by decide) (by decide)

theorem seReg (x y : Reg) : Statement (.seReg x y) :=
  fun _ => selects_encodeXYN _ x y _ 0x5000 (by decide) (by decide)

theorem ldImm (x : Reg) (nn : Byte) : Statement (.ldImm x nn) :=
  fun _ => selects_encodeXNN _ x nn 0x6000 (by decide) (by decide)

theorem addImm (x : Reg) (nn : Byte) : Statement (.addImm x nn) :=
  fun _ => selects_encodeXNN _ x nn 0x7000 (by decide) (by decide)

theorem ldReg (x y : Reg) : Statement (.ldReg x y) :=
  fun _ => selects_encodeXYN_n _ x y _ 0x8000 (by decide) (by decide)

theorem or (x y : Reg) : Statement (.or x y) :=
  fun _ => selects_encodeXYN_n _ x y _ 0x8001 (by decide) (by decide)

theorem and (x y : Reg) : Statement (.and x y) :=
  fun _ => selects_encodeXYN_n _ x y _ 0x8002 (by decide) (by decide)

theorem xor (x y : Reg) : Statement (.xor x y) :=
  fun _ => selects_encodeXYN_n _ x y _ 0x8003 (by decide) (by decide)

theorem addReg (x y : Reg) : Statement (.addReg x y) :=
  fun _ => selects_encodeXYN_n _ x y _ 0x8004 (by decide) (by decide)

theorem sub (x y : Reg) : Statement (.sub x y) :=
  fun _ => selects_encodeXYN_n _ x y _ 0x8005 (by decide) (by decide)

theorem shr (x : Reg) : Statement (.shr x) :=
  fun _ => selects_encodeXNN_n _ x _ 0x8006 (by decide) (by decide)

theorem subn (x y : Reg) : Statement (.subn x y) :=
  fun _ => selects_encodeXYN_n _ x y _ 0x8007 (by decide) (by decide)

theorem shl (x : Reg) : Statement (.shl x) :=
  fun _ => selects_encodeXNN_n _ x _ 0x800E (by decide) (by decide)

theorem sneReg (x y : Reg) : Statement (.sneReg x y) :=
  fun _ => selects_encodeXYN _ x y _ 0x9000 (by decide) (by decide)

theorem ldI (nnn : BitVec 12) : Statement (.ldI nnn) :=
  fun _ => selects_encodeNNN _ nnn 0xA000 (by decide) (by decide)

theorem jpV0 (nnn : BitVec 12) : Statement (.jpV0 nnn) :=
  fun _ => selects_encodeNNN _ nnn 0xB000 (by decide) (by decide)

theorem rnd (x : Reg) (nn : Byte) : Statement (.rnd x nn) :=
  fun _ => selects_encodeXNN _ x nn 0xC000 (by decide) (by decide)

theorem drw (x y : Reg) (n : BitVec 4) : Statement (.drw x y n) :=
  fun _ => selects_encodeXYN _ x y n 0xD000 (by decide) (by decide)

theorem skp (x : Reg) : Statement (.skp x) :=
  fun _ => selects_encodeXNN_nn _ x _ 0xE09E (by decide) (by decide)

theorem sknp (x : Reg) : Statement (.sknp x) :=
  fun _ => selects_encodeXNN_nn _ x _ 0xE0A1 (by decide) (by decide)

theorem ldFromDT (x : Reg) : Statement (.ldFromDT x) :=
  fun _ => selects_encodeXNN_n _ x _ 0xF007 (by decide) (by decide)

theorem ldKey (x : Reg) : Statement (.ldKey x) :=
  fun _ => selects_encodeXNN_n _ x _ 0xF00A (by decide) (by decide)

theorem ldDT (x : Reg) : Statement (.ldDT x) :=
  fun _ => selects_encodeXNN_nn _ x _ 0xF015 (by decide) (by decide)

theorem ldST (x : Reg) : Statement (.ldST x) :=
  fun _ => selects_encodeXNN_n _ x _ 0xF008 (by decide) (by decide)

theorem addI (x : Reg) : Statement (.addI x) :=
  fun _ => selects_encodeXNN_n _ x _ 0xF00E (by decide) (by decide)

theorem ldF (x : Reg) : Statement (.ldF x) :=
  fun _ => selects_encodeXNN_n _ x _ 0xF009 (by decide) (by decide)

theorem ldB (x : Reg) : Statement (.ldB x) :=
  fun _ => selects_encodeXNN_n _ x _ 0xF003 (by decide) (by decide)

theorem storeRegs (x : Reg) : Statement (.storeRegs x) :=
  fun _ => selects_encodeXNN_nn _ x _ 0xF055 (by decide) (by decide)

theorem loadRegs (x : Reg) : Statement (.loadRegs x) :=
  fun _ => selects_encodeXNN_nn _ x _ 0xF065 (by decide) (by decide)

theorem unknown (w : Word) : Statement (.unknown w) := fun h r hr => not_selects_of_unknown w h r hr

end Sys2Proof.Laws.SelectsRow
end

