-- ==== Sys2Proof/Laws/Step.lean ====
section
/-! SUPPORT. What a step can do, said once: the halted step, the fetch fault, and the executed instruction. -/

namespace Sys2Proof.Machine

theorem halted_iff (s : State) : halted s = true ↔ s.fault ≠ none := by
  unfold halted
  cases s.fault <;> simp

theorem not_halted_iff (s : State) : halted s = false ↔ s.fault = none := by
  unfold halted
  cases s.fault <;> simp

/-- A timer's tick as a number (R128). -/
theorem decTimer_toNat (t : Byte) : (decTimer t).toNat = t.toNat - 1 := by
  unfold decTimer
  split
  · subst_vars; rfl
  · rename_i h
    have h0 : t.toNat ≠ 0 := fun hz => h (BitVec.eq_of_toNat_eq (by simpa using hz))
    have := t.isLt
    rw [BitVec.toNat_sub]
    simp
    omega

/-- A tick changes the timers and the events only (R128, R129). -/
theorem tick_eq (s : State) :
    tick s = { s with DT := decTimer s.DT, ST := decTimer s.ST,
                      events := if s.ST = 1 then s.events ++ [.beep] else s.events } := by
  unfold tick beepIfDue
  split <;> rfl

/-- A halted step does nothing (R126). -/
theorem step_halted (s : State) (h : s.fault ≠ none) : step s = .next (beginStep s) := by
  have := (halted_iff s).mpr h
  simp [step, cycle, this]

/-- A step with `pc` above 4094 faults at fetch (R121, R221). -/
theorem step_fetch_fault (s : State) (h : s.fault = none) (hp : 4094 < s.pc.toNat) :
    step s = .next (raise (beginStep s) (.fetchOutOfBounds s.pc)) := by
  have := (not_halted_iff s).mpr h
  simp [step, cycle, this, Config.lastFetch, hp]

/-- A step that fetches executes the decoded word and then ticks (R120). -/
theorem step_exec (s : State) (h : s.fault = none) (hp : s.pc.toNat ≤ 4094) :
    step s = finish (exec (decodeWord (fetchWord s s.pc.toNat))
      (latchOpcode (beginStep s) (fetchWord s s.pc.toNat))) := by
  have := (not_halted_iff s).mpr h
  have hn : ¬ 4094 < s.pc.toNat := by omega
  simp [step, cycle, this, Config.lastFetch, hn]

/-- The end of a step, from the execute phase's answer (R127, R128). -/
theorem finish_next {r : Result} {u : State} (h : finish r = .next u) :
    ∃ t, r = .next t ∧ ((t.fault ≠ none ∧ u = t) ∨ (t.fault = none ∧ u = tick t)) := by
  cases r with
  | next t =>
    refine ⟨t, rfl, ?_⟩
    simp only [finish] at h
    split at h <;> rename_i hh <;> injection h with h
    · exact .inl ⟨(halted_iff t).mp hh, h.symm⟩
    · exact .inr ⟨(not_halted_iff t).mp (by simpa using hh), h.symm⟩
  | fault r => simp [finish] at h
  | refused r => simp [finish] at h

/-- Everything a step can do (R120, R126, R127, R128). -/
theorem step_cases {s u : State} (h : step s = .next u) :
    (s.fault ≠ none ∧ u = beginStep s) ∨
    (s.fault = none ∧ 4094 < s.pc.toNat ∧ u = raise (beginStep s) (.fetchOutOfBounds s.pc)) ∨
    (s.fault = none ∧ s.pc.toNat ≤ 4094 ∧
      ∃ t, exec (decodeWord (fetchWord s s.pc.toNat)) (latchOpcode (beginStep s) (fetchWord s s.pc.toNat)) = .next t ∧
        ((t.fault ≠ none ∧ u = t) ∨ (t.fault = none ∧ u = tick t))) := by
  by_cases hf : s.fault = none
  · by_cases hp : 4094 < s.pc.toNat
    · rw [step_fetch_fault s hf hp] at h
      injection h with h
      exact .inr (.inl ⟨hf, hp, h.symm⟩)
    · rw [step_exec s hf (by omega)] at h
      exact .inr (.inr ⟨hf, by omega, finish_next h⟩)
  · rw [step_halted s hf] at h
    injection h with h
    exact .inl ⟨hf, h.symm⟩

/-- Placing a table word makes the very next step run its instruction (the host's use of it; log entry 9). -/
theorem step_withFetchWord (s : State) (nbits w : Nat) :
    step (s.withFetchWord nbits w) =
      finish (exec (decodeWord (tableWord nbits w))
        (latchOpcode (beginStep (s.withFetchWord nbits w)) (tableWord nbits w))) := by
  have hp : (s.withFetchWord nbits w).pc.toNat ≤ 4094 := by
    show (readyToFetch s).pc.toNat ≤ 4094
    simp only [readyToFetch, Config.lastFetch]
    split
    · decide
    · omega
  have hw : fetchWord (s.withFetchWord nbits w) (s.withFetchWord nbits w).pc.toNat = tableWord nbits w := by
    show wordOfBytes (readByte (storeWord (readyToFetch s) (readyToFetch s).pc.toNat (tableWord nbits w)) _)
      (readByte (storeWord (readyToFetch s) (readyToFetch s).pc.toNat (tableWord nbits w)) _) = _
    have hpc : (s.withFetchWord nbits w).pc = (readyToFetch s).pc := rfl
    simp only [storeWord, readByte_writeByte, hpc, if_true]
    rw [if_neg (by omega), wordOfBytes_bytes]
  rw [step_exec _ rfl hp, hw]

/-- The decoder reads from a table word what a step runs. -/
theorem decodeTableWord_eq (nbits w : Nat) : decodeTableWord nbits w = some (decodeWord (tableWord nbits w)) := by
  simp [decodeTableWord, decode]

end Sys2Proof.Machine
end

