-- ==== Sys2Proof/Tests/Slice0.lean ====
section
/-! SUPPORT. The model's own tests: the well-formedness smoke, one word per constructor written out from the spec's
encodings, the spec's vectors (95_test_vectors.md, cited by their ids), and for every obligation with hypotheses a
state and operands that meet them. -/

namespace Sys2Proof.Tests

open Sys2Proof.Machine Sys2Proof.Claims

/-! ### Start states and answers -/

/-- The reset state with some registers set. -/
def regs (l : List (Reg × Byte)) : State := l.foldl (fun t p => setV t p.1 p.2) State.reset

/-- Bytes at ascending addresses. -/
def bytesAt (a : Nat) (l : List Byte) (s : State) : State := { s with memory := Memory.writeList s.memory a l }

/-- An instruction word at `pc`. -/
def word (w : Nat) (s : State) : State := s.withFetchWord 16 w

/-- Some keys down. -/
def down (l : List Key) (s : State) : State := l.foldl (fun t k => putKey k.val true t) s

/-- Some pixels on. -/
def lit (l : List (Fin 64 × Fin 32)) (s : State) : State :=
  l.foldl (fun t p => { t with screen := t.screen.set p.2 (t.screen[p.2].set p.1 true) }) s

/-- The bar of the drawing vectors: one byte 0xFF at 0x300, `I` there. -/
def bar (s : State) : State := { bytesAt 0x300 [0xFF] s with I := 0x300 }

/-- The columns of a screen row that are on. -/
def rowOn (s : State) (yy : Fin 32) : List Nat := (List.finRange 64).filterMap (fun xx => if pixelAt s xx yy then some xx.val else none)

/-- Is the answer a next state with the property? -/
def sat (r : Result) (p : State → Bool) : Bool :=
  match r with
  | .next t => p t
  | .fault _ => false
  | .refused _ => false

/-- An answer that is a next state with a decidable property, as an existence. -/
theorem next_of_sat {r : Result} (p : State → Prop) [DecidablePred p] (h : sat r (fun t => decide (p t)) = true) :
    ∃ u, r = .next u ∧ p u := by
  cases r with
  | next t => exact ⟨t, rfl, by simpa [sat] using h⟩
  | fault f => simp [sat] at h
  | refused f => simp [sat] at h

/-! ### Well-formedness: the one check -/

/-- 0x00E0 is CLS, so no unknown opcode carries it (R94, R101). -/
theorem test_wf_refuses_a_defined_word : Instr.wf (.unknown 0x00E0) = false := by decide

/-- 0x812F is in R101's table. -/
theorem test_wf_accepts_an_unknown_word : Instr.wf (.unknown 0x812F) = true := by decide

theorem test_wf_accepts_a_known_instruction : Instr.wf (.drw 1 2 5) = true := by decide

/-- Fewer than two bytes hold no instruction (R90). -/
theorem test_decode_refuses_one_byte : decode [0x60] = .error .truncated := rfl

/-- The byte at the lower address is the high byte (R62, T1). -/
theorem test_decode_big_endian : decode [0x60, 0x05, 0x61] = .ok (.ldImm 0 5, [0x61]) := rfl

/-! ### Decoding: a word of every constructor, each with the row of R99 it selects -/

theorem test_decode_cls : (0x00E0 : Word) &&& 0xF00F = 0x0000 ∧ decodeWord 0x00E0 = .cls := by decide
theorem test_decode_cls_zero : (0x0000 : Word) &&& 0xF00F = 0x0000 ∧ decodeWord 0x0000 = .cls := by decide
theorem test_decode_ret : (0x0A5E : Word) &&& 0xF00F = 0x000E ∧ decodeWord 0x0A5E = .ret := by decide
theorem test_decode_jp : (0x1FFF : Word) &&& 0xF000 = 0x1000 ∧ decodeWord 0x1FFF = .jp 0xFFF := by decide
theorem test_decode_call : (0x2ABC : Word) &&& 0xF000 = 0x2000 ∧ decodeWord 0x2ABC = .call 0xABC := by decide
theorem test_decode_seImm : (0x332B : Word) &&& 0xF000 = 0x3000 ∧ decodeWord 0x332B = .seImm 3 0x2B := by decide
theorem test_decode_sneImm : (0x432A : Word) &&& 0xF000 = 0x4000 ∧ decodeWord 0x432A = .sneImm 3 0x2A := by decide
theorem test_decode_seReg : (0x5127 : Word) &&& 0xF000 = 0x5000 ∧ decodeWord 0x5127 = .seReg 1 2 := by decide
theorem test_decode_ldImm : (0x6A7F : Word) &&& 0xF000 = 0x6000 ∧ decodeWord 0x6A7F = .ldImm 10 0x7F := by decide
theorem test_decode_addImm : (0x7220 : Word) &&& 0xF000 = 0x7000 ∧ decodeWord 0x7220 = .addImm 2 0x20 := by decide
theorem test_decode_ldReg : (0x8120 : Word) &&& 0xF00F = 0x8000 ∧ decodeWord 0x8120 = .ldReg 1 2 := by decide
theorem test_decode_or : (0x8F11 : Word) &&& 0xF00F = 0x8001 ∧ decodeWord 0x8F11 = .or 15 1 := by decide
theorem test_decode_and : (0x8012 : Word) &&& 0xF00F = 0x8002 ∧ decodeWord 0x8012 = .and 0 1 := by decide
theorem test_decode_xor : (0x80E3 : Word) &&& 0xF00F = 0x8003 ∧ decodeWord 0x80E3 = .xor 0 14 := by decide
theorem test_decode_addReg : (0x8014 : Word) &&& 0xF00F = 0x8004 ∧ decodeWord 0x8014 = .addReg 0 1 := by decide
theorem test_decode_sub : (0x80F5 : Word) &&& 0xF00F = 0x8005 ∧ decodeWord 0x80F5 = .sub 0 15 := by decide
theorem test_decode_shr : (0x8016 : Word) &&& 0xF00F = 0x8006 ∧ decodeWord 0x8016 = .shr 0 := by decide
theorem test_decode_subn : (0x8F17 : Word) &&& 0xF00F = 0x8007 ∧ decodeWord 0x8F17 = .subn 15 1 := by decide
theorem test_decode_shl : (0x801E : Word) &&& 0xF00F = 0x800E ∧ decodeWord 0x801E = .shl 0 := by decide
theorem test_decode_sneReg : (0x912F : Word) &&& 0xF000 = 0x9000 ∧ decodeWord 0x912F = .sneReg 1 2 := by decide
theorem test_decode_ldI : (0xA300 : Word) &&& 0xF000 = 0xA000 ∧ decodeWord 0xA300 = .ldI 0x300 := by decide
theorem test_decode_jpV0 : (0xBFFF : Word) &&& 0xF000 = 0xB000 ∧ decodeWord 0xBFFF = .jpV0 0xFFF := by decide
theorem test_decode_rnd : (0xC3F0 : Word) &&& 0xF000 = 0xC000 ∧ decodeWord 0xC3F0 = .rnd 3 0xF0 := by decide
theorem test_decode_drw : (0xDF15 : Word) &&& 0xF000 = 0xD000 ∧ decodeWord 0xDF15 = .drw 15 1 5 := by decide
theorem test_decode_skp : (0xE19E : Word) &&& 0xF0FF = 0xE09E ∧ decodeWord 0xE19E = .skp 1 := by decide
theorem test_decode_sknp : (0xE1A1 : Word) &&& 0xF0FF = 0xE0A1 ∧ decodeWord 0xE1A1 = .sknp 1 := by decide
theorem test_decode_ldFromDT : (0xF1F7 : Word) &&& 0xF00F = 0xF007 ∧ decodeWord 0xF1F7 = .ldFromDT 1 := by decide
theorem test_decode_ldKey : (0xFA0A : Word) &&& 0xF00F = 0xF00A ∧ decodeWord 0xFA0A = .ldKey 10 := by decide
theorem test_decode_ldDT : (0xF015 : Word) &&& 0xF0FF = 0xF015 ∧ decodeWord 0xF015 = .ldDT 0 := by decide
theorem test_decode_ldST : (0xF0C8 : Word) &&& 0xF00F = 0xF008 ∧ decodeWord 0xF0C8 = .ldST 0 := by decide
theorem test_decode_addI : (0xF1AE : Word) &&& 0xF00F = 0xF00E ∧ decodeWord 0xF1AE = .addI 1 := by decide
theorem test_decode_ldF : (0xF329 : Word) &&& 0xF00F = 0xF009 ∧ decodeWord 0xF329 = .ldF 3 := by decide
theorem test_decode_ldB : (0xF033 : Word) &&& 0xF00F = 0xF003 ∧ decodeWord 0xF033 = .ldB 0 := by decide
theorem test_decode_storeRegs : (0xFF55 : Word) &&& 0xF0FF = 0xF055 ∧ decodeWord 0xFF55 = .storeRegs 15 := by decide
theorem test_decode_loadRegs : (0xF165 : Word) &&& 0xF0FF = 0xF065 ∧ decodeWord 0xF165 = .loadRegs 1 := by decide
theorem test_decode_unknown : decodeWord 0xF175 = .unknown 0xF175 ∧ decodeWord 0xE1FE = .unknown 0xE1FE := by decide

/-- The host's view of a table word is the decoder's (log entry 8). -/
theorem test_decodeTableWord : decodeTableWord 16 0xD125 = some (.drw 1 2 5) := by decide

/-! ### Control flow -/

/-- V22. -/
theorem test_jp_highest : sat (step (word 0x1FFF State.reset)) (fun t => t.pc == 0xFFF && t.fault == none) = true := by decide

/-- V23: the address of the CALL itself is pushed. -/
theorem test_call_pushes_itself :
    sat (step (word 0x2ABC { State.reset with pc := 0x456, sp := 3 }))
      (fun t => t.stack[3] == 0x456 && t.sp == 4 && t.pc == 0xABC) = true := by decide

/-- V25. -/
theorem test_call_overflow :
    sat (step (word 0x2300 { State.reset with sp := 16 }))
      (fun t => t.fault == some (.stackOverflow 0x200) && t.pc == 0x200 && t.sp == 16) = true := by decide

/-- V26: the popped address plus 2; the entry stays. -/
theorem test_ret :
    sat (step (word 0x00EE { State.reset with pc := 0x210, sp := 1, stack := State.reset.stack.set 0 0x204 }))
      (fun t => t.pc == 0x206 && t.sp == 0 && t.stack[0] == 0x204) = true := by decide

/-- V28. -/
theorem test_ret_underflow :
    sat (step (word 0x00EE State.reset)) (fun t => t.fault == some (.stackUnderflow 0x200) && t.pc == 0x200) = true := by
  decide

/-- V29 and V30. -/
theorem test_seImm :
    sat (step (word 0x332A (regs [(3, 0x2A)]))) (fun t => t.pc == 0x204) = true ∧
    sat (step (word 0x332B (regs [(3, 0x2A)]))) (fun t => t.pc == 0x202) = true := by decide

/-- V31 and V32. -/
theorem test_sneImm :
    sat (step (word 0x432A (regs [(3, 0x2A)]))) (fun t => t.pc == 0x202) = true ∧
    sat (step (word 0x4300 (regs [(3, 0x2A)]))) (fun t => t.pc == 0x204) = true := by decide

/-- V34 and V35. -/
theorem test_seReg :
    sat (step (word 0x5127 (regs [(1, 7), (2, 7)]))) (fun t => t.pc == 0x204) = true ∧
    sat (step (word 0x5120 (regs [(1, 7), (2, 8)]))) (fun t => t.pc == 0x202) = true := by decide

/-- V37 and V38. -/
theorem test_sneReg :
    sat (step (word 0x9120 (regs [(1, 7), (2, 7)]))) (fun t => t.pc == 0x202) = true ∧
    sat (step (word 0x912F (regs [(1, 7), (2, 8)]))) (fun t => t.pc == 0x204) = true := by decide

/-- V41: the sum is not reduced modulo 4096. -/
theorem test_jpV0_past_memory :
    sat (step (word 0xBFFF (regs [(0, 0xFF)]))) (fun t => t.pc == 0x10FE && t.fault == none) = true := by decide

/-- V43: a skip at the last fetch address. -/
theorem test_skip_past_memory :
    sat (step (word 0x3000 { State.reset with pc := 4094 })) (fun t => t.pc == 4098 && t.fault == none) = true := by decide

/-! ### Arithmetic and logic -/

/-- V121 and V120. -/
theorem test_ldImm :
    sat (step (word 0x6F12 State.reset)) (fun t => getV t VF == 0x12) = true ∧
    sat (step (word 0x6A7F (regs [(15, 0x77)]))) (fun t => getV t 10 == 0x7F && getV t VF == 0x77) = true := by decide

/-- V122: the wrap sets no flag. -/
theorem test_addImm_wraps :
    sat (step (word 0x7220 (regs [(2, 0xF0), (15, 0x77)]))) (fun t => getV t 2 == 0x10 && getV t VF == 0x77) = true := by
  decide

/-- V125. -/
theorem test_ldReg : sat (step (word 0x8010 (regs [(1, 9)]))) (fun t => getV t 0 == 9) = true := by decide

/-- V54. -/
theorem test_or :
    sat (step (word 0x8011 (regs [(0, 0xF0), (1, 0x0F), (15, 0x77)])))
      (fun t => getV t 0 == 0xFF && getV t VF == 0x77) = true := by decide

/-- V55. -/
theorem test_and :
    sat (step (word 0x8012 (regs [(0, 0xF0), (1, 0x3C), (15, 0x77)])))
      (fun t => getV t 0 == 0x30 && getV t VF == 0x77) = true := by decide

/-- V56. -/
theorem test_xor :
    sat (step (word 0x8013 (regs [(0, 0xF0), (1, 0x3C), (15, 0x77)])))
      (fun t => getV t 0 == 0xCC && getV t VF == 0x77) = true := by decide

/-- V129: with y = 15 the old `VF` is added. -/
theorem test_addReg_old_flag :
    sat (step (word 0x80F4 (regs [(0, 0x10), (15, 0xFF)]))) (fun t => getV t 0 == 0x0F && getV t VF == 1) = true := by
  decide

/-- V131: with x = 15 the result stays. -/
theorem test_addReg_result_wins :
    sat (step (word 0x8F14 (regs [(15, 0xF0), (1, 0x20)]))) (fun t => getV t VF == 0x10) = true := by decide

/-- V10 and V11. -/
theorem test_sub :
    sat (step (word 0x8015 (regs [(0, 3), (1, 5)]))) (fun t => getV t 0 == 0xFE && getV t VF == 0) = true ∧
    sat (step (word 0x8015 (regs [(0, 7), (1, 7)]))) (fun t => getV t 0 == 0 && getV t VF == 1) = true := by decide

/-- V15 and V18. -/
theorem test_subn :
    sat (step (word 0x8017 (regs [(0, 3), (1, 5)]))) (fun t => getV t 0 == 2 && getV t VF == 1) = true ∧
    sat (step (word 0x8017 (regs [(0, 1), (1, 0)]))) (fun t => getV t 0 == 0xFF && getV t VF == 0) = true := by decide

/-- V45: `V[y]` is neither read nor written. -/
theorem test_shr :
    sat (step (word 0x8016 (regs [(0, 5), (1, 0xAA)])))
      (fun t => getV t 0 == 2 && getV t VF == 1 && getV t 1 == 0xAA) = true := by decide

/-- V50 and V52. -/
theorem test_shl :
    sat (step (word 0x801E (regs [(0, 0x81), (1, 0xAA)]))) (fun t => getV t 0 == 2 && getV t VF == 1) = true ∧
    sat (step (word 0x801E (regs [(0, 0x7F), (1, 0xAA)]))) (fun t => getV t 0 == 0xFE && getV t VF == 0) = true := by
  decide

/-! ### Index register and memory -/

/-- V59. -/
theorem test_ldI : sat (step (word 0xA300 { State.reset with I := 0xFFFF })) (fun t => t.I == 0x300) = true := by decide

/-- V65 and V68. -/
theorem test_addI :
    sat (step (word 0xF11E { regs [(1, 1), (15, 0x77)] with I := 0xFFF }))
      (fun t => t.I == 0x1000 && getV t VF == 0x77) = true ∧
    sat (step (word 0xF11E { regs [(1, 2)] with I := 0xFFFF })) (fun t => t.I == 1) = true := by decide

/-- V61 and T4. -/
theorem test_ldB :
    sat (step (word 0xF033 { regs [(0, 123)] with I := 4093 }))
      (fun t => (readByte t 4093, readByte t 4094, readByte t 4095) == (1, 2, 3)) = true ∧
    sat (step (word 0xF033 { regs [(0, 157)] with I := 0x300 }))
      (fun t => (readByte t 0x300, readByte t 0x301, readByte t 0x302) == (1, 5, 7)) = true := by decide

/-- V62: nothing is stored. -/
theorem test_ldB_fault :
    sat (step (word 0xF033 { regs [(0, 123)] with I := 4094 }))
      (fun t => t.fault == some (.memOutOfBounds 4096) && readByte t 4094 == 0 && t.pc == 0x200) = true := by decide

/-- V75: registers 0 to x inclusive, `I` unchanged. -/
theorem test_storeRegs :
    sat (step (word 0xF255 { regs [(0, 1), (1, 5), (2, 7), (3, 9)] with I := 0x305 }))
      (fun t => readByte t 0x305 == 1 && readByte t 0x306 == 5 && readByte t 0x307 == 7 && readByte t 0x308 == 0 &&
        readByte t 0x304 == 0 && t.I == 0x305) = true := by decide

/-- V60. -/
theorem test_storeRegs_fault :
    sat (step (word 0xFF55 { regs [(0, 0x10), (1, 0x11)] with I := 4081 }))
      (fun t => t.fault == some (.memOutOfBounds 4096) && readByte t 4081 == 0) = true := by decide

/-- V77. -/
theorem test_loadRegs :
    sat (step (word 0xF265 { bytesAt 0x300 [1, 5, 7, 9] (regs [(3, 0x33)]) with I := 0x300 }))
      (fun t => getV t 0 == 1 && getV t 1 == 5 && getV t 2 == 7 && getV t 3 == 0x33 && t.I == 0x300) = true := by decide

/-- V64. -/
theorem test_loadRegs_fault :
    sat (step (word 0xF165 { bytesAt 4095 [0x5A] (regs [(0, 1), (1, 2)]) with I := 4095 }))
      (fun t => t.fault == some (.memOutOfBounds 4096) && getV t 0 == 1 && getV t 1 == 2) = true := by decide

/-! ### Timers, font and keys -/

/-- V80: read, then tick. -/
theorem test_ldFromDT :
    sat (step (word 0xF307 { State.reset with DT := 10 })) (fun t => getV t 3 == 10 && t.DT == 9) = true := by decide

/-- V83 and V85. -/
theorem test_ldDT :
    sat (step (word 0xF015 (regs [(0, 3)]))) (fun t => t.DT == 2) = true ∧
    sat (step (word 0xF015 (regs [(0, 1)]))) (fun t => t.DT == 0 && t.events == []) = true := by decide

/-- V87 and V88. -/
theorem test_ldST :
    sat (step (word 0xF018 (regs [(0, 3)]))) (fun t => t.ST == 2 && t.events == []) = true ∧
    sat (step (word 0xF018 (regs [(0, 1)]))) (fun t => t.ST == 0 && t.events == [.beep]) = true := by decide

/-- V93: no wrap to 255. -/
theorem test_tick_stops_at_zero :
    sat (step (word 0x6000 State.reset)) (fun t => t.DT == 0 && t.ST == 0 && t.events == []) = true := by decide

/-- V101 and V94. -/
theorem test_ldF :
    sat (step (word 0xF029 (regs [(0, 0xFF)]))) (fun t => t.I == 0x4B) = true ∧
    sat (step (word 0xF029 { regs [(0, 7)] with I := 0xFFF })) (fun t => t.I == 0x23) = true := by decide

/-- V103: the lowest key. -/
theorem test_ldKey_lowest :
    sat (step (word 0xF10A (down [7, 9] { State.reset with pc := 0x204 })))
      (fun t => getV t 1 == 7 && t.pc == 0x206) = true := by decide

/-- V104: a stalled step ticks. -/
theorem test_ldKey_stall :
    sat (step (word 0xF10A { regs [(1, 0x55)] with pc := 0x204, DT := 5, ST := 1 }))
      (fun t => t.pc == 0x204 && getV t 1 == 0x55 && t.DT == 4 && t.ST == 0 && t.events == [.beep]) = true := by decide

/-- V97 and V95. -/
theorem test_skp :
    sat (step (word 0xE19E (down [15] (regs [(1, 15)])))) (fun t => t.pc == 0x204) = true ∧
    sat (step (word 0xE19E { down [0] (regs [(1, 16)]) with DT := 4 }))
      (fun t => t.fault == some (.keyIndexOutOfRange 16) && t.pc == 0x200 && t.DT == 4) = true := by decide

/-- V98 and V99. -/
theorem test_sknp :
    sat (step (word 0xE1A1 { regs [(1, 7)] with pc := 0x206 })) (fun t => t.pc == 0x20A) = true ∧
    sat (step (word 0xE1A1 { down [7] (regs [(1, 7)]) with pc := 0x206 })) (fun t => t.pc == 0x208) = true := by decide

/-! ### Screen -/

/-- V166: CLS leaves the queue. -/
theorem test_cls :
    sat (step (word 0x00E0 (lit [(5, 5)] { State.reset with pixelChangeQueue := [⟨5, 5, true⟩] })))
      (fun t => rowOn t 5 == [] && t.redrawRequested && t.pixelChangeQueue == [⟨5, 5, true⟩] && t.events == []) = true := by
  decide

/-- V158: a collision, and a record for each flip. -/
theorem test_drw_collision :
    sat (step (word 0xD121 (bar (lit [(3, 0), (9, 0)] State.reset))))
      (fun t => rowOn t 0 == [0, 1, 2, 4, 5, 6, 7, 9] && getV t VF == 1 &&
        t.pixelChangeQueue.map (fun r => (r.xx.val, r.yy.val, r.v)) ==
          [(0, 0, true), (1, 0, true), (2, 0, true), (3, 0, false), (4, 0, true), (5, 0, true), (6, 0, true),
            (7, 0, true)]) = true := by decide

/-- V161 and V153: the column is the old `VF`; the bar is clipped at the corner. -/
theorem test_drw_latch_and_clip :
    sat (step (word 0xDF11 (bar (regs [(15, 2), (1, 1)]))))
      (fun t => rowOn t 1 == [2, 3, 4, 5, 6, 7, 8, 9] && getV t VF == 0) = true ∧
    sat (step (word 0xD121 (bar (regs [(1, 63), (2, 31)]))))
      (fun t => rowOn t 31 == [63] && rowOn t 0 == [] && t.events.length == 1) = true := by decide

/-- V164: the bounds check sees clipped rows; V151: no row, no check. -/
theorem test_drw_bounds :
    sat (step (word 0xD122 { regs [(1, 100), (2, 100), (15, 0x55)] with I := 4095 }))
      (fun t => t.fault == some (.memOutOfBounds 4096) && getV t VF == 0x55) = true ∧
    sat (step (word 0xD120 { regs [(15, 0x77)] with I := 0xFFFF }))
      (fun t => t.fault == none && getV t VF == 0 && t.events == []) = true := by decide

/-- V150: the glyph 0 has 14 pixels, so 14 records. -/
theorem test_drw_glyph :
    sat (step (word 0xD125 State.reset))
      (fun t => rowOn t 0 == [0, 1, 2, 3] && rowOn t 1 == [0, 3] && t.pixelChangeQueue.length == 14) = true := by decide

/-! ### Random, unknown, faults, host -/

/-- V172: under the mask 0 every draw gives 0. -/
theorem test_rnd_mask_zero : ∃ t, exec (.rnd 3 0) (regs [(3, 9)]) = .next t ∧ getV t 3 = 0 := by
  refine ⟨_, rfl, ?_⟩
  show _ &&& (0 : Byte) = 0
  exact BitVec.and_zero

/-- One draw a step; V170's step moves on and leaves the flag. -/
theorem test_rnd_draws_once :
    sat (step (word 0xC30F (regs [(15, 0x77)]))) (fun t => t.rndCount == 1 && t.pc == 0x202 && getV t VF == 0x77) = true := by
  decide

/-- V116: the unknown opcode, then the beep. -/
theorem test_unknown :
    sat (step (word 0x0123 { State.reset with DT := 2, ST := 1 }))
      (fun t => t.pc == 0x202 && t.DT == 1 && t.ST == 0 && t.events == [.unknownOpcode 0x0123, .beep]) = true := by decide

/-- V110: the fetch fault neither ticks nor latches. -/
theorem test_fetch_fault :
    sat (step { State.reset with pc := 4095, DT := 3, currentOpcode := 0x1234 })
      (fun t => t.fault == some (.fetchOutOfBounds 4095) && t.pc == 4095 && t.DT == 3 && t.currentOpcode == 0x1234) = true := by
  decide

/-- V117. -/
theorem test_halted :
    sat (step { State.reset with fault := some (.stackUnderflow 0x200), DT := 5, ST := 1 })
      (fun t => t.pc == 0x200 && t.DT == 5 && t.ST == 1 && t.currentOpcode == 0 && t.events == []) = true := by decide

/-- V182. -/
theorem test_load_program :
    sat (hostEffect (.loadProgram [0xAA, 0xBB]) { bytesAt 0x200 [1, 2, 3, 4] State.reset with pc := 0x20A })
      (fun t => readByte t 0x200 == 0xAA && readByte t 0x201 == 0xBB && readByte t 0x202 == 3 && t.pc == 0x20A) = true := by
  decide

/-- T1: four steps from reset and load. -/
theorem test_T1 :
    sat (runSchedule [.reset, .loadProgram [0x60, 0x05, 0x61, 0x03, 0x80, 0x14, 0x00, 0x00], .step, .step, .step, .step]
      State.reset) (fun t => getV t 0 == 8 && getV t VF == 0 && t.redrawRequested && t.pc == 0x208) = true := by decide

/-! ### Witnesses: every obligation with hypotheses has a state and operands that meet them -/

/-- At the first and the last address a fetch succeeds at. -/
theorem test_hyp_StepRunsDecodedInstruction :
    ((word 0x1234 State.reset).fault = none ∧ (word 0x1234 State.reset).pc.toNat ≤ 4094 ∧
      decode [readByte (word 0x1234 State.reset) 0x200, readByte (word 0x1234 State.reset) 0x201] = .ok (.jp 0x234, [])) ∧
    ({ State.reset with pc := 4094 } : State).pc.toNat ≤ 4094 ∧
      decode [readByte State.reset 4094, readByte State.reset 4095] = .ok (.cls, []) := by
  refine ⟨⟨by decide, by decide, ?_⟩, by decide, ?_⟩ <;> decide

/-- `pc` at 4095, and a step at 4094 that leaves `pc` at 4096 without a fault. -/
theorem test_hyp_FetchPastEndFaults :
    (({ State.reset with pc := 4095 } : State).fault = none ∧ 4094 < ({ State.reset with pc := 4095 } : State).pc.toNat) ∧
    (({ State.reset with pc := 4094 } : State).pc.toNat ≤ 4094 ∧
      ∃ u, step { State.reset with pc := 4094 } = .next u ∧ u.fault = none ∧ u.pc = 4096) :=
  ⟨by decide, by decide, next_of_sat _ (by decide)⟩

theorem test_hyp_HaltedStepDoesNothing : ({ State.reset with fault := some (.stackUnderflow 0x200) } : State).fault ≠ none := by
  decide

/-- A plain step, a load of DT and a load of ST. -/
theorem test_hyp_StepTicksBothTimers :
    (State.reset.fault = none ∧ ∃ u, step State.reset = .next u ∧ u.fault = none) ∧
    (∃ u, step (word 0xF015 (regs [(0, 3)])) = .next u ∧ u.fault = none ∧ fetched (word 0xF015 (regs [(0, 3)])) = .ldDT 0) ∧
    (∃ u, step (word 0xF018 (regs [(0, 1)])) = .next u ∧ u.fault = none ∧ fetched (word 0xF018 (regs [(0, 1)])) = .ldST 0) :=
  ⟨⟨rfl, next_of_sat _ (by decide)⟩, next_of_sat _ (by decide), next_of_sat _ (by decide)⟩

/-- Each of the five faults, at the boundary of its cause. -/
theorem test_hyp_FaultsHaveExactlyTheirCauses :
    (∃ u, step { State.reset with pc := 4095 } = .next u ∧ u.fault = some (.fetchOutOfBounds 4095)) ∧
    (∃ u, step (word 0x2300 { State.reset with sp := 16 }) = .next u ∧ u.fault = some (.stackOverflow 0x200)) ∧
    (∃ u, step (word 0x2300 { State.reset with sp := 15 }) = .next u ∧ u.fault = none) ∧
    (∃ u, step (word 0x00EE State.reset) = .next u ∧ u.fault = some (.stackUnderflow 0x200)) ∧
    (∃ u, step (word 0xF033 { State.reset with I := 4094 }) = .next u ∧ u.fault = some (.memOutOfBounds 4096)) ∧
    (∃ u, step (word 0xF155 { State.reset with I := 4095 }) = .next u ∧ u.fault = some (.memOutOfBounds 4096)) ∧
    (∃ u, step (word 0xF165 { State.reset with I := 4095 }) = .next u ∧ u.fault = some (.memOutOfBounds 4096)) ∧
    (∃ u, step (word 0xD122 { State.reset with I := 4095 }) = .next u ∧ u.fault = some (.memOutOfBounds 4096)) ∧
    (∃ u, step (word 0xE19E (regs [(1, 16)])) = .next u ∧ u.fault = some (.keyIndexOutOfRange 16)) ∧
    (∃ u, step (word 0xE1A1 (regs [(1, 15)])) = .next u ∧ u.fault = none) :=
  ⟨next_of_sat _ (by decide), next_of_sat _ (by decide), next_of_sat _ (by decide), next_of_sat _ (by decide),
    next_of_sat _ (by decide), next_of_sat _ (by decide), next_of_sat _ (by decide), next_of_sat _ (by decide),
    next_of_sat _ (by decide), next_of_sat _ (by decide)⟩

/-- A fault at fetch, and one after it. -/
theorem test_hyp_FaultsArePrecise :
    (∃ u, step { State.reset with pc := 4095 } = .next u ∧ u.fault ≠ none) ∧
    ((word 0x00EE State.reset).fault = none ∧ ∃ u, step (word 0x00EE State.reset) = .next u ∧ u.fault ≠ none) :=
  ⟨next_of_sat _ (by decide), by decide, next_of_sat _ (by decide)⟩

/-- A draw, and an unknown opcode with a beep. -/
theorem test_hyp_EventsOfAStepAreOrdered :
    (∃ u, step (word 0xD125 State.reset) = .next u ∧ u.events.length = 14) ∧
    (∃ u, step (word 0x0123 { State.reset with ST := 1 }) = .next u ∧ u.events = [.unknownOpcode 0x0123, .beep]) :=
  ⟨next_of_sat _ (by decide), next_of_sat _ (by decide)⟩

/-- The highest `pc` of the bound, and a live stack entry. -/
theorem test_hyp_PcStaysBelow4351 :
    (State.reset.liveStackOk ∧ ∃ u, step (word 0xBFFF (regs [(0, 0xFF)])) = .next u ∧ u.fault = none ∧ u.pc.toNat = 4350) ∧
    (({ State.reset with sp := 1, stack := State.reset.stack.set 0 4094 } : State).liveStackOk ∧
      ∃ u, step (word 0x00EE { State.reset with sp := 1, stack := State.reset.stack.set 0 4094 }) = .next u ∧
        u.fault = none ∧ u.pc.toNat = 4096) :=
  ⟨⟨by decide, next_of_sat _ (by decide)⟩, by decide, next_of_sat _ (by decide)⟩

/-- A store to the first byte of the word, and one elsewhere. -/
theorem test_hyp_FetchSeesEveryStore :
    State.reset.fault = none ∧ State.reset.pc.toNat ≤ 4094 ∧
    (∃ u, step (writeByte State.reset 0x200 0x12) = .next u ∧ u.currentOpcode = 0x1200) ∧
    (∃ u, step (writeByte State.reset 0x201 0xE0) = .next u ∧ u.currentOpcode = 0x00E0) ∧
    (∃ u, step (writeByte State.reset 0x202 0x12) = .next u ∧ u.currentOpcode = 0) :=
  ⟨by decide, by decide, next_of_sat _ (by decide), next_of_sat _ (by decide), next_of_sat _ (by decide)⟩

theorem test_hyp_QueueAndRedrawFlagUnobservable :
    ∃ u, step (word 0xD125 State.reset) = .next u ∧ u.pixelChangeQueue.length = 14 := next_of_sat _ (by decide)

theorem test_hyp_EndOfRunIsAFixedPoint : (word 0x1200 State.reset).endOfRun = true := by decide

/-- Reset, a state with live stack entries and stored bytes, and a halted state. -/
theorem test_hyp_StepKeepsInvariant :
    (State.reset.Inv ∧ ∃ u, step State.reset = .next u ∧ u.fault = none) ∧
    (State.Inv (word 0x2300 { State.reset with sp := 15 }) ∧
      ∃ u, step (word 0x2300 { State.reset with sp := 15 }) = .next u ∧ u.sp = 16) ∧
    State.Inv { State.reset with fault := some (.stackUnderflow 0x200) } :=
  ⟨⟨by decide, next_of_sat _ (by decide)⟩, ⟨by decide, next_of_sat _ (by decide)⟩, by decide⟩

theorem test_hyp_EveryScheduleKeepsInvariant :
    State.Inv (word 0xF055 { State.reset with I := 4095 }) ∧
    ∃ u, runSchedule [.setKey 3, .step, .drainPixelEvents] (word 0xF055 { State.reset with I := 4095 }) = .next u ∧ u.Inv :=
  ⟨by decide, next_of_sat _ (by decide)⟩

theorem test_hyp_HostWritesOneKey :
    15 < 16 ∧ hostEffect (.setKey 16) State.reset = .next State.reset ∧
    (∃ t, hostEffect (.setKey 15) State.reset = .next t ∧ t.keys[15] = true ∧ (14 : Key) ≠ 15) :=
  ⟨by decide, rfl, next_of_sat _ (by decide)⟩

/-- The longest image, and the empty one. -/
theorem test_hyp_LoadProgramCopiesImage :
    (List.replicate 3584 (0x12 : Byte)).length ≤ 3584 ∧ 3583 < (List.replicate 3584 (0x12 : Byte)).length ∧
    ([] : List Byte).length ≤ 3584 ∧ (4095 < 0x200 ∨ 0x200 + ([] : List Byte).length ≤ 4095) := by
  rw [List.length_replicate]
  decide

theorem test_hyp_LoadProgramRejectsOversize : 3584 < (List.replicate 3585 (0x12 : Byte)).length := by
  rw [List.length_replicate]
  decide

theorem test_hyp_BootRunsTheFirstWord :
    (List.replicate 3582 (0x12 : Byte)).length ≤ 3582 ∧ ([] : List Byte).length ≤ 3582 := by
  rw [List.length_replicate]
  decide

theorem test_hyp_DecodeOfEncode : Instr.wf (.unknown 0xFFFF) = true ∧ Instr.wf (.storeRegs 15) = true ∧ Instr.wf .cls = true := by
  decide

theorem test_hyp_OpcodeRowsAreDisjoint :
    0 < opcodeMap.length ∧ 33 < opcodeMap.length ∧ opcodeMap[0].selects 0x00E0 = true ∧ opcodeMap[33].selects 0xF265 = true := by
  decide

theorem test_hyp_EncodeOfDecode :
    noIgnoredBits (decodeWord 0xDFFF) = true ∧ noIgnoredBits (decodeWord 0xFF65) = true ∧ noIgnoredBits (decodeWord 0x812F) = true := by
  decide

/-- CALL with 15 entries and with 16. -/
theorem test_hyp_CallPushesItsOwnAddress :
    ({ State.reset with sp := 15 } : State).sp.val < 16 ∧ ({ State.reset with sp := 16 } : State).sp.val = 16 := by decide

/-- RET with one entry and with none. -/
theorem test_hyp_ReturnPopsAndAddsTwo : 0 < ({ State.reset with sp := 1 } : State).sp.val ∧ State.reset.sp.val = 0 := by decide

theorem test_hyp_CallThenReturnRoundTrip :
    ({ State.reset with sp := 15 } : State).sp.val < 16 ∧ (14 : Fin 16).val < ({ State.reset with sp := 15 } : State).sp.val := by
  decide

/-- The inner hypotheses of the flag-writing statements: a destination that is not the flag, and a third register. -/
theorem test_hyp_flag_and_result : (14 : Reg) ≠ VF ∧ (0 : Reg) ≠ 14 ∧ (0 : Reg) ≠ VF := by decide

/-- The last address the three digits fit at, and the first they do not. -/
theorem test_hyp_StoreDecimalDigits :
    ({ State.reset with I := 4093 } : State).I.toNat + 2 ≤ 4095 ∧ 4095 < ({ State.reset with I := 4094 } : State).I.toNat + 2 ∧
    (4092 < ({ State.reset with I := 4093 } : State).I.toNat ∨ ({ State.reset with I := 4093 } : State).I.toNat + 2 < 4092) := by
  decide

/-- The last address the registers fit at, and the first they do not, for x = 0 and x = 15. -/
theorem test_hyp_BulkStore_BulkLoad :
    (({ State.reset with I := 4095 } : State).I.toNat + (0 : Reg).val ≤ 4095 ∧
      4095 < ({ State.reset with I := 4096 } : State).I.toNat + (0 : Reg).val) ∧
    (({ State.reset with I := 4080 } : State).I.toNat + (15 : Reg).val ≤ 4095 ∧
      4095 < ({ State.reset with I := 4081 } : State).I.toNat + (15 : Reg).val) ∧
    (15 : Reg) ≤ 15 ∧ (0 : Reg) < 1 ∧ (4079 < ({ State.reset with I := 4080 } : State).I.toNat) := by
  decide

/-- No key, and the least of two keys. -/
theorem test_hyp_KeyWaitStallsOrStoresLowest :
    (∀ k : Key, State.reset.keys[k] = false) ∧
    (down [7, 9] State.reset).keys[7] = true ∧ (∀ j : Key, j < 7 → (down [7, 9] State.reset).keys[j] = false) ∧
    (down [15] State.reset).keys[15] = true ∧ ∀ j : Key, j < 15 → (down [15] State.reset).keys[j] = false := by
  decide

/-- The largest key index, and the first that faults. -/
theorem test_hyp_KeySkips :
    (getV (regs [(1, 15)]) 1).toNat = (15 : Key).val ∧ 15 < (getV (regs [(1, 16)]) 1).toNat := by decide

/-- No row at any address, one row at the last address, and the first draw outside memory. -/
theorem test_hyp_Draw :
    spriteInMemory { State.reset with I := 0xFFFF } 0 ∧ spriteInMemory { State.reset with I := 4095 } 1 ∧
    (0 < (2 : BitVec 4).toNat ∧ 4095 < ({ State.reset with I := 4095 } : State).I.toNat + (2 : BitVec 4).toNat - 1) := by
  refine ⟨.inl rfl, .inr ?_, ?_⟩ <;> decide

/-- A draw over a pixel that is on, and one over a blank screen: the two clauses for the flag. -/
theorem test_hyp_DrawFlipsTheSpritesPixels :
    (spriteInMemory (lit [(3, 0)] State.reset) 5 ∧
      spriteBit (lit [(3, 0)] State.reset) 0 0 5 3 0 = true ∧ pixelAt (lit [(3, 0)] State.reset) 3 0 = true) ∧
    spriteInMemory State.reset 5 ∧ ∀ xx yy, pixelAt State.reset xx yy = false := by
  refine ⟨⟨.inr ?_, ?_, ?_⟩, .inr ?_, ?_⟩
  · decide
  · decide
  · decide
  · decide
  · intro xx yy
    simp [pixelAt, State.reset]

/-- A second draw from the same registers, and one whose column was `VF` before the first cleared it. -/
theorem test_hyp_DrawingTwiceRestoresTheScreen :
    (spriteInMemory State.reset 5 ∧ ∃ t, exec (.drw 1 2 5) State.reset = .next t ∧
      getV t 1 = getV State.reset 1 ∧ getV t 2 = getV State.reset 2) ∧
    (∃ t, exec (.drw 15 1 5) (regs [(15, 2), (1, 1), (3, 2)]) = .next t ∧
      getV t 3 = getV (regs [(15, 2), (1, 1), (3, 2)]) 15 ∧ getV t 1 = getV (regs [(15, 2), (1, 1), (3, 2)]) 1) := by
  refine ⟨⟨.inr ?_, next_of_sat _ ?_⟩, next_of_sat _ ?_⟩ <;> decide

/-- A word that selects no row. -/
theorem test_hyp_UnknownOpcodeIsANoOp : ∀ r ∈ opcodeMap, r.selects 0x812F = false := by decide

/-- A register another instruction's destination leaves alone, and one above a bulk load. -/
theorem test_hyp_RegisterFrame :
    (∃ t, exec (.addReg 0 1) State.reset = .next t ∧ writesReg (.addReg 0 1) 2 = false) ∧
    (∃ t, exec (.loadRegs 3) State.reset = .next t ∧ writesReg (.loadRegs 3) 4 = false) :=
  ⟨next_of_sat _ (by decide), next_of_sat _ (by decide)⟩

/-- The byte after the digits, the byte after the registers, and any byte for an instruction that stores nothing. -/
theorem test_hyp_MemoryFrame :
    (∃ t, exec (.ldB 0) State.reset = .next t ∧ 3 ∉ storeAddrs (.ldB 0) State.reset) ∧
    (∃ t, exec (.storeRegs 3) State.reset = .next t ∧ 4 ∉ storeAddrs (.storeRegs 3) State.reset ∧
      3 ∈ storeAddrs (.storeRegs 3) State.reset) ∧
    (∃ t, exec (.jp 0) State.reset = .next t ∧ 0 ∉ storeAddrs (.jp 0) State.reset) :=
  ⟨next_of_sat _ (by decide), next_of_sat _ (by decide), next_of_sat _ (by decide)⟩

theorem test_hyp_SpecialRegisterFrame : ∃ t, exec (.addI 1) State.reset = .next t ∧ t.fault = none := next_of_sat _ (by decide)

end Sys2Proof.Tests
end

section
/-! PROOFS. Reasoning rules that the instruction families share: the fields the statements read from a word (R9), the
decoder under the two masks (R99), a jump target (R10), an advance of `pc` (R24), and the two answers of a push and of
a pop (R142, R143, R223, R225). -/

namespace Sys2Proof.Proofs

open Sys2Proof.Machine Sys2Proof.Claims

/-! ### The decoder's fields are the statements' fields (R9) -/

theorem Field.x_eq_xOf (w : Word) : Field.x w = xOf w := Fin.ext (Field.x_val w)

theorem Field.y_eq_yOf (w : Word) : Field.y w = yOf w := Fin.ext (Field.y_val w)

theorem Field.nn_eq_nnOf (w : Word) : Field.nn w = nnOf w :=
  BitVec.eq_of_toNat_eq (by rw [Field.nn_toNat, nnOf, BitVec.toNat_ofNat])

theorem Field.nnn_eq_nnnOf (w : Word) : Field.nnn w = nnnOf w :=
  BitVec.eq_of_toNat_eq (by rw [Field.nnn_toNat, nnnOf, BitVec.toNat_ofNat])

/-! ### What a masked word says of the fields (R99) -/

theorem Field.op_and_F000 (w : Word) : Field.op (w &&& 0xF000) = Field.op w := by
  rw [and_F000]
  exact op_encodeNNN (Field.op w) 0#12

/-- The mask 0xF00F keeps the word of format XYN with both register fields 0. -/
theorem and_F00F_eq_encodeXYN (w : Word) : w &&& 0xF00F = encodeXYN (Field.op w) 0 0 (Field.n w) := by
  rw [and_F00F]
  apply BitVec.eq_of_toNat_eq
  simp only [encodeXYN_toNat, toNat_append_add, BitVec.toNat_zero, Fin.val_zero, Nat.reducePow]
  omega

theorem Field.op_and_F00F (w : Word) : Field.op (w &&& 0xF00F) = Field.op w := by
  rw [and_F00F_eq_encodeXYN, op_encodeXYN]

theorem Field.n_and_F00F (w : Word) : Field.n (w &&& 0xF00F) = Field.n w := by
  rw [and_F00F_eq_encodeXYN, n_encodeXYN]

/-- A row with mask 0xF000 decodes as the decoder treats its primary group (R93). -/
theorem decodesAs_F000 {bits : Word} {f : Word → Instr}
    (h : ∀ w, Field.op w = Field.op bits → decodeWord w = f w) : decodesAs 0xF000 bits f := by
  intro w hw
  exact h w (by rw [← hw, Field.op_and_F000])

/-- A row with mask 0xF00F decodes as the decoder treats its primary group and low nibble (R94, R95, R97). -/
theorem decodesAs_F00F {bits : Word} {f : Word → Instr}
    (h : ∀ w, Field.op w = Field.op bits → Field.n w = Field.n bits → decodeWord w = f w) :
    decodesAs 0xF00F bits f := by
  intro w hw
  exact h w (by rw [← hw, Field.op_and_F00F]) (by rw [← hw, Field.n_and_F00F])

/-! ### Where control goes -/

theorem zext12_eq_ofNat (nnn : BitVec 12) : zext12 nnn = BitVec.ofNat 16 nnn.toNat :=
  (BitVec.ofNat_toNat 16 nnn).symm

theorem pc_add_ofNat (s : State) (k : Nat) : s.pc + BitVec.ofNat 16 k = pcPlus s k := by
  rw [pcPlus, BitVec.ofNat_add, BitVec.ofNat_toNat, BitVec.setWidth_eq]

theorem advance_eq (s : State) (k : Nat) : advance s k = { s with pc := pcPlus s k } := by
  rw [← pc_add_ofNat]
  rfl

/-- A skip on a Boolean test of a condition moves `pc` by 4 or 2 as the condition holds or not (R24). -/
theorem skipIf_eq {c : Bool} {p : Prop} [Decidable p] (h : c = true ↔ p) (s : State) :
    skipIf c s = { s with pc := pcPlus s (if p then 4 else 2) } := by
  rw [skipIf, advance_eq, if_congr h rfl rfl]

/-! ### The call stack -/

theorem pushStack_ok (s : State) (v : Word) (done : State → State) (h : s.sp.val < 16) :
    pushStack s v done =
      .next (done { s with stack := s.stack.set s.sp.val v, sp := ⟨s.sp.val + 1, by omega⟩ }) :=
  dif_pos h

theorem pushStack_fault (s : State) (v : Word) (done : State → State) (h : s.sp.val = 16) :
    pushStack s v done = .next (raise s (.stackOverflow s.pc)) :=
  dif_neg (by omega)

theorem popStack_ok (s : State) (done : Word → State → State) (h : 0 < s.sp.val) :
    popStack s done =
      .next (done (s.stack[s.sp.val - 1]'(by omega)) { s with sp := ⟨s.sp.val - 1, by omega⟩ }) :=
  dif_pos h

theorem popStack_fault (s : State) (done : Word → State → State) (h : s.sp.val = 0) :
    popStack s done = .next (raise s (.stackUnderflow s.pc)) :=
  dif_neg (by omega)

end Sys2Proof.Proofs
end

section
/-! PROOFS. The control-flow statements: the jump, the call, the return and the four skips (R141 to R147). -/

namespace Sys2Proof.Proofs

open Sys2Proof.Machine Sys2Proof.Claims

/-! ### The meanings, through the shared operations -/

theorem exec_jp (nnn : BitVec 12) (s : State) : exec (.jp nnn) s = .next (setPc s (zext12 nnn)) := rfl

theorem exec_call (nnn : BitVec 12) (s : State) :
    exec (.call nnn) s = pushStack s s.pc (fun t => setPc t (zext12 nnn)) := rfl

theorem exec_ret (s : State) : exec .ret s = popStack s (fun a t => setPc t (a + 2)) := rfl

theorem exec_seImm (x : Reg) (nn : Byte) (s : State) :
    exec (.seImm x nn) s = .next (skipIf (getV s x == nn) s) := rfl

theorem exec_sneImm (x : Reg) (nn : Byte) (s : State) :
    exec (.sneImm x nn) s = .next (skipIf (getV s x != nn) s) := rfl

theorem exec_seReg (x y : Reg) (s : State) :
    exec (.seReg x y) s = .next (skipIf (getV s x == getV s y) s) := rfl

theorem exec_sneReg (x y : Reg) (s : State) :
    exec (.sneReg x y) s = .next (skipIf (getV s x != getV s y) s) := rfl

/-! ### The tests of the skips, as numbers -/

theorem beq_iff_toNat_eq (a b : Byte) : (a == b) = true ↔ a.toNat = b.toNat := by
  rw [beq_iff_eq, BitVec.toNat_inj]

theorem bne_iff_toNat_ne (a b : Byte) : (a != b) = true ↔ a.toNat ≠ b.toNat := by
  rw [bne_iff_ne, ne_eq, ne_eq, BitVec.toNat_inj]

/-- The entry's address plus 2, modulo 65536 (R143). -/
theorem add_two_eq_ofNat (a : Word) : a + 2 = BitVec.ofNat 16 (a.toNat + 2) := by
  rw [BitVec.ofNat_add, BitVec.ofNat_toNat, BitVec.setWidth_eq]
  rfl

/-! ### The statements -/

/-- Settles O29: group 1 is the jump, whose meaning is one write of `pc`. -/
theorem jumpSetsPc : Obligations.JumpSetsPc := by
  unfold Obligations.JumpSetsPc
  refine ⟨decodesAs_F000 fun w (hop : Field.op w = 0x1#4) => ?_, fun nnn s => ?_⟩
  · simp only [decodeWord, hop, Field.nnn_eq_nnnOf]
  · rw [exec_jp, zext12_eq_ofNat, setPc]

/-- Settles O30: group 2 is the call, and a call is a push, which stores or faults by `sp`. -/
theorem callPushesItsOwnAddress : Obligations.CallPushesItsOwnAddress := by
  unfold Obligations.CallPushesItsOwnAddress
  refine ⟨decodesAs_F000 fun w (hop : Field.op w = 0x2#4) => ?_, fun nnn s h => ?_, fun nnn s h => ?_⟩
  · simp only [decodeWord, hop, Field.nnn_eq_nnnOf]
  · rw [exec_call, pushStack_ok _ _ _ h, zext12_eq_ofNat, setPc]
  · rw [exec_call, pushStack_fault _ _ _ h, raise]

/-- Settles O31: group 0 with low nibble 0xE is the return, and a return is a pop, which reads or faults by `sp`. -/
theorem returnPopsAndAddsTwo : Obligations.ReturnPopsAndAddsTwo := by
  unfold Obligations.ReturnPopsAndAddsTwo
  refine ⟨decodesAs_F00F fun w (hop : Field.op w = 0x0#4) (hn : Field.n w = 0xE#4) => ?_, fun s h => ?_, fun s h => ?_⟩
  · simp only [decodeWord, hop, decodeGroup0, hn]
  · rw [exec_ret, popStack_ok _ _ h, add_two_eq_ofNat, setPc]
  · rw [exec_ret, popStack_fault _ _ h, raise]

/-- Settles O33: groups 3 and 4 are the skips on an immediate, each a skip on its test of the register. -/
theorem skipsOnImmediate : Obligations.SkipsOnImmediate := by
  unfold Obligations.SkipsOnImmediate
  refine ⟨decodesAs_F000 fun w (hop : Field.op w = 0x3#4) => ?_,
    decodesAs_F000 fun w (hop : Field.op w = 0x4#4) => ?_, fun x nn s => ?_, fun x nn s => ?_⟩
  · simp only [decodeWord, hop, Field.x_eq_xOf, Field.nn_eq_nnOf]
  · simp only [decodeWord, hop, Field.x_eq_xOf, Field.nn_eq_nnOf]
  · rw [exec_seImm, skipIf_eq (beq_iff_toNat_eq _ _)]
  · rw [exec_sneImm, skipIf_eq (bne_iff_toNat_ne _ _)]

/-- Settles O34: groups 5 and 9 are the skips on two registers for every low nibble, each a skip on its test. -/
theorem skipsOnRegisters : Obligations.SkipsOnRegisters := by
  unfold Obligations.SkipsOnRegisters
  refine ⟨decodesAs_F000 fun w (hop : Field.op w = 0x5#4) => ?_,
    decodesAs_F000 fun w (hop : Field.op w = 0x9#4) => ?_, fun x y s => ?_, fun x y s => ?_⟩
  · simp only [decodeWord, hop, Field.x_eq_xOf, Field.y_eq_yOf]
  · simp only [decodeWord, hop, Field.x_eq_xOf, Field.y_eq_yOf]
  · rw [exec_seReg, skipIf_eq (beq_iff_toNat_eq _ _)]
  · rw [exec_sneReg, skipIf_eq (bne_iff_toNat_ne _ _)]

end Sys2Proof.Proofs
end

section
/-! PROOFS. Reasoning rules for the two register-writing frames: an instruction whose meaning is `writeV` or `writeFlagV`
meets the statements' frame as soon as the values it writes are the stated numbers (R22, R24, R160, R162). -/

namespace Sys2Proof.Proofs

open Sys2Proof.Machine Sys2Proof.Claims

theorem advance_setV_eq (s : State) (x : Reg) (v : Byte) (k : Nat) :
    advance (setV s x v) k = { s with V := (setV s x v).V, pc := pcPlus s k } := by
  rw [advance_eq]
  rfl

theorem advance_setFlagThenV_eq (s : State) (x : Reg) (flag : Bool) (v : Byte) (k : Nat) :
    advance (setFlagThenV s x flag v) k = { s with V := (setFlagThenV s x flag v).V, pc := pcPlus s k } := by
  rw [advance_eq]
  rfl

/-- A meaning that is one register write and the advance writes that register only (R162). -/
theorem writesOnly_of_writeV {i : Instr} {x : Reg} {result : State → Nat} {v : State → Byte}
    (hexec : ∀ s, exec i s = writeV s x (v s)) (hresult : ∀ s, (v s).toNat = result s) : writesOnly i x result := by
  intro s
  refine ⟨advance (setV s x (v s)) 2, hexec s, ?_, fun r hr => ?_, advance_setV_eq s x (v s) 2⟩
  · rw [getV_advance, getV_setV_same, hresult]
  · rw [getV_advance, getV_setV_other s x r (v s) hr]

/-- A meaning that is a flag write, a register write and the advance writes these two registers only, and at x = 15 the
register write is the one that stays (R160). -/
theorem writesFlagAndResult_of_writeFlagV {i : Instr} {x : Reg} {flag result : State → Nat} {b : State → Bool}
    {v : State → Byte} (hexec : ∀ s, exec i s = writeFlagV s x (b s) (v s))
    (hflag : ∀ s, (flagByte (b s)).toNat = flag s) (hresult : ∀ s, (v s).toNat = result s) :
    writesFlagAndResult i x flag result := by
  intro s
  refine ⟨advance (setFlagThenV s x (b s) (v s)) 2, hexec s, ?_, fun hx => ?_, fun r hx hf => ?_,
    advance_setFlagThenV_eq s x (b s) (v s) 2⟩
  · rw [getV_advance, getV_setFlagThenV_dest, hresult]
  · rw [getV_advance, getV_setFlagThenV_flag s x (b s) (v s) hx, hflag]
  · rw [getV_advance, getV_setFlagThenV_other s x r (b s) (v s) hx hf]

/-- A row of group 8 with two register operands decodes as the group's decoder treats its low nibble (R95). -/
theorem decodesAs_group8 {bits : Word} {mk : Reg → Reg → Instr} (hop : Field.op bits = 0x8#4)
    (h : ∀ w, Field.n w = Field.n bits → decodeGroup8 w = mk (Field.x w) (Field.y w)) :
    decodesAs 0xF00F bits (fun w => mk (xOf w) (yOf w)) := by
  refine decodesAs_F00F fun w hw hn => ?_
  have hgroup : decodeWord w = decodeGroup8 w := by simp only [decodeWord, hw, hop]
  rw [hgroup, h w hn, Field.x_eq_xOf, Field.y_eq_yOf]

end Sys2Proof.Proofs
end

section
/-! PROOFS. The arithmetic and logic statements but the shifts: the loads, the sums, the differences and the bitwise
operations (R163 to R170, R172). -/

namespace Sys2Proof.Proofs

open Sys2Proof.Machine Sys2Proof.Claims

/-! ### The meanings, through the two frames -/

theorem exec_ldImm (x : Reg) (nn : Byte) (s : State) : exec (.ldImm x nn) s = writeV s x nn := rfl

theorem exec_addImm (x : Reg) (nn : Byte) (s : State) : exec (.addImm x nn) s = writeV s x (getV s x + nn) := rfl

theorem exec_ldReg (x y : Reg) (s : State) : exec (.ldReg x y) s = writeV s x (getV s y) := rfl

theorem exec_or (x y : Reg) (s : State) : exec (.or x y) s = writeV s x (getV s x ||| getV s y) := rfl

theorem exec_and (x y : Reg) (s : State) : exec (.and x y) s = writeV s x (getV s x &&& getV s y) := rfl

theorem exec_xor (x y : Reg) (s : State) : exec (.xor x y) s = writeV s x (getV s x ^^^ getV s y) := rfl

theorem exec_addReg (x y : Reg) (s : State) :
    exec (.addReg x y) s = writeFlagV s x (carry (getV s x) (getV s y)) (getV s x + getV s y) := rfl

theorem exec_sub (x y : Reg) (s : State) :
    exec (.sub x y) s = writeFlagV s x (notBorrow (getV s x) (getV s y)) (getV s x - getV s y) := rfl

theorem exec_subn (x y : Reg) (s : State) :
    exec (.subn x y) s = writeFlagV s x (notBorrow (getV s y) (getV s x)) (getV s y - getV s x) := rfl

/-! ### The values and the flags, as numbers -/

/-- A difference of bytes on the naturals: 256 is lent before the subtraction (R170, R172). -/
theorem toNat_sub_byte (a b : Byte) : (a - b).toNat = (a.toNat + 256 - b.toNat) % 256 := by
  have hb : b.toNat < 256 := b.isLt
  rw [BitVec.toNat_sub]
  omega

/-- The flag of a Boolean test of a condition is 1 or 0 as the condition holds or not (R25). -/
theorem flagByte_toNat {c : Bool} {p : Prop} [Decidable p] (h : c = true ↔ p) :
    (flagByte c).toNat = if p then 1 else 0 := by
  rw [flagByte, if_congr h rfl rfl]
  split <;> rfl

theorem carry_iff (a b : Byte) : carry a b = true ↔ 255 < a.toNat + b.toNat := decide_eq_true_iff

theorem notBorrow_iff (a b : Byte) : notBorrow a b = true ↔ ¬a.toNat < b.toNat := by
  rw [notBorrow, decide_eq_true_iff, Nat.not_lt]

theorem flagByte_notBorrow_toNat (a b : Byte) :
    (flagByte (notBorrow a b)).toNat = if a.toNat < b.toNat then 0 else 1 := by
  rw [flagByte_toNat (notBorrow_iff a b), ite_not]

/-! ### The statements -/

/-- Settles O36: group 6 is the load of an immediate, whose meaning is one register write. -/
theorem loadImmediate : Obligations.LoadImmediate := by
  unfold Obligations.LoadImmediate
  refine ⟨decodesAs_F000 fun w (hop : Field.op w = 0x6#4) => ?_, fun x nn => ?_⟩
  · simp only [decodeWord, hop, Field.x_eq_xOf, Field.nn_eq_nnOf]
  · exact writesOnly_of_writeV (exec_ldImm x nn) fun _ => rfl

/-- Settles O37: group 7 is the addition of an immediate, whose meaning is one register write and no flag. -/
theorem addImmediateWrapsWithoutFlag : Obligations.AddImmediateWrapsWithoutFlag := by
  unfold Obligations.AddImmediateWrapsWithoutFlag
  refine ⟨decodesAs_F000 fun w (hop : Field.op w = 0x7#4) => ?_, fun x nn => ?_⟩
  · simp only [decodeWord, hop, Field.x_eq_xOf, Field.nn_eq_nnOf]
  · exact writesOnly_of_writeV (exec_addImm x nn) fun s => BitVec.toNat_add (getV s x) nn

/-- Settles O38: low nibbles 0 to 3 of group 8 are the copy and the bitwise operations, each one register write. -/
theorem copyAndBitwise : Obligations.CopyAndBitwise := by
  unfold Obligations.CopyAndBitwise
  refine ⟨decodesAs_group8 rfl fun w (hn : Field.n w = 0x0#4) => ?_,
    decodesAs_group8 rfl fun w (hn : Field.n w = 0x1#4) => ?_,
    decodesAs_group8 rfl fun w (hn : Field.n w = 0x2#4) => ?_,
    decodesAs_group8 rfl fun w (hn : Field.n w = 0x3#4) => ?_, fun x y => ⟨?_, ?_, ?_, ?_⟩⟩
  · simp only [decodeGroup8, hn]
  · simp only [decodeGroup8, hn]
  · simp only [decodeGroup8, hn]
  · simp only [decodeGroup8, hn]
  · exact writesOnly_of_writeV (exec_ldReg x y) fun _ => rfl
  · exact writesOnly_of_writeV (exec_or x y) fun s => BitVec.toNat_or (getV s x) (getV s y)
  · exact writesOnly_of_writeV (exec_and x y) fun s => BitVec.toNat_and (getV s x) (getV s y)
  · exact writesOnly_of_writeV (exec_xor x y) fun s => BitVec.toNat_xor (getV s x) (getV s y)

/-- Settles O39: low nibble 4 of group 8 is the sum, whose flag is the carry of the old operands. -/
theorem addWithCarry : Obligations.AddWithCarry := by
  unfold Obligations.AddWithCarry
  refine ⟨decodesAs_group8 rfl fun w (hn : Field.n w = 0x4#4) => ?_, fun x y => ?_⟩
  · simp only [decodeGroup8, hn]
  · exact writesFlagAndResult_of_writeFlagV (exec_addReg x y)
      (fun s => flagByte_toNat (carry_iff (getV s x) (getV s y))) fun s => BitVec.toNat_add (getV s x) (getV s y)

/-- Settles O40: low nibble 5 of group 8 is the difference, whose flag is its "not borrow". -/
theorem subtractWithNotBorrow : Obligations.SubtractWithNotBorrow := by
  unfold Obligations.SubtractWithNotBorrow
  refine ⟨decodesAs_group8 rfl fun w (hn : Field.n w = 0x5#4) => ?_, fun x y => ?_⟩
  · simp only [decodeGroup8, hn]
  · exact writesFlagAndResult_of_writeFlagV (exec_sub x y)
      (fun s => flagByte_notBorrow_toNat (getV s x) (getV s y)) fun s => toNat_sub_byte (getV s x) (getV s y)

/-- Settles O41: low nibble 7 of group 8 is the difference with its operands exchanged, in the flag as in the result. -/
theorem reverseSubtractWithNotBorrow : Obligations.ReverseSubtractWithNotBorrow := by
  unfold Obligations.ReverseSubtractWithNotBorrow
  refine ⟨decodesAs_group8 rfl fun w (hn : Field.n w = 0x7#4) => ?_, fun x y => ?_⟩
  · simp only [decodeGroup8, hn]
  · exact writesFlagAndResult_of_writeFlagV (exec_subn x y)
      (fun s => flagByte_notBorrow_toNat (getV s y) (getV s x)) fun s => toNat_sub_byte (getV s y) (getV s x)

end Sys2Proof.Proofs
end

section
/-! PROOFS. Reasoning rules that the index, memory and timer instructions share: the decoder under the mask 0xF0FF and
in group F (R97, R99), the words an index write leaves (R10, R26), and the memory instructions' meanings as a bounds
check of one effect (R66, R222). -/

namespace Sys2Proof.Proofs

open Sys2Proof.Machine Sys2Proof.Claims

/-! ### What the mask 0xF0FF says of the fields (R99) -/

/-- The mask 0xF0FF keeps the word of format XNN with the register field 0. -/
theorem and_F0FF_eq_encodeXNN (w : Word) : w &&& 0xF0FF = encodeXNN (Field.op w) 0 (Field.nn w) := and_F0FF w

theorem Field.op_and_F0FF (w : Word) : Field.op (w &&& 0xF0FF) = Field.op w := by
  rw [and_F0FF_eq_encodeXNN, op_encodeXNN]

theorem Field.nn_and_F0FF (w : Word) : Field.nn (w &&& 0xF0FF) = Field.nn w := by
  rw [and_F0FF_eq_encodeXNN, nn_encodeXNN]

/-- A row with mask 0xF0FF decodes as the decoder treats its primary group and low byte (R96, R97). -/
theorem decodesAs_F0FF {bits : Word} {f : Word → Instr}
    (h : ∀ w, Field.op w = Field.op bits → Field.nn w = Field.nn bits → decodeWord w = f w) :
    decodesAs 0xF0FF bits f := by
  intro w hw
  exact h w (by rw [← hw, Field.op_and_F0FF]) (by rw [← hw, Field.nn_and_F0FF])

/-- The low nibble is a part of the low byte (R9). -/
theorem Field.n_eq_of_nn_eq {w b : Word} (h : Field.nn w = Field.nn b) : Field.n w = Field.n b := by
  have hnat := congrArg BitVec.toNat h
  rw [Field.nn_toNat, Field.nn_toNat] at hnat
  apply BitVec.eq_of_toNat_eq
  rw [Field.n_toNat, Field.n_toNat]
  omega

/-- The second selector is a part of the low byte (R9). -/
theorem Field.ysel_eq_of_nn_eq {w b : Word} (h : Field.nn w = Field.nn b) : Field.ysel w = Field.ysel b := by
  have hnat := congrArg BitVec.toNat h
  rw [Field.nn_toNat, Field.nn_toNat] at hnat
  apply BitVec.eq_of_toNat_eq
  rw [Field.ysel_toNat, Field.ysel_toNat]
  omega

/-! ### The rows of group F (R97) -/

theorem decodeWord_groupF {w : Word} (hop : Field.op w = 0xF#4) : decodeWord w = decodeGroupF w := by
  simp only [decodeWord, hop]
  rfl

/-- A row of group F with mask 0xF00F decodes as the group's decoder treats its low nibble (R97). -/
theorem decodesAs_groupF {bits : Word} {mk : Reg → Instr} (hop : Field.op bits = 0xF#4)
    (h : ∀ w, Field.n w = Field.n bits → decodeGroupF w = mk (Field.x w)) :
    decodesAs 0xF00F bits (fun w => mk (xOf w)) := by
  refine decodesAs_F00F fun w hw hn => ?_
  rw [decodeWord_groupF (hw.trans hop), h w hn, Field.x_eq_xOf]

/-- A row of group F with low nibble 5 decodes as the sub-case's decoder treats its second selector (R97). -/
theorem decodesAs_groupF5 {bits : Word} {mk : Reg → Instr} (hop : Field.op bits = 0xF#4)
    (hn : Field.n bits = 0x5#4) (h : ∀ w, Field.ysel w = Field.ysel bits → decodeGroupF5 w = mk (Field.x w)) :
    decodesAs 0xF0FF bits (fun w => mk (xOf w)) := by
  refine decodesAs_F0FF fun w hw hnn => ?_
  have hsub : decodeGroupF w = decodeGroupF5 w := by
    simp only [decodeGroupF, (Field.n_eq_of_nn_eq hnn).trans hn]
  rw [decodeWord_groupF (hw.trans hop), hsub, h w (Field.ysel_eq_of_nn_eq hnn), Field.x_eq_xOf]

/-! ### The index register -/

theorem advance_setI_eq (s : State) (v : Word) (k : Nat) :
    advance (setI s v) k = { s with I := v, pc := pcPlus s k } := by
  rw [advance_eq]
  rfl

/-- A word plus a byte, zero-extended, modulo 65536 (R10, R181). -/
theorem add_zext8_eq_ofNat (a : Word) (v : Byte) : a + zext8 v = BitVec.ofNat 16 (a.toNat + v.toNat) := by
  have hzext : zext8 v = BitVec.ofNat 16 v.toNat := (BitVec.ofNat_toNat 16 v).symm
  rw [BitVec.ofNat_add, BitVec.ofNat_toNat, BitVec.setWidth_eq, hzext]

/-! ### The memory instructions, as a bounds check (R66) -/

/-- A meaning that is a bounds check of an effect completes with that effect when its highest address is in memory. -/
theorem exec_of_checkMem_ok {i : Instr} {s done : State} {k : Nat}
    (hexec : exec i s = checkMem s (effAddr s k) done) (h : s.I.toNat + k ≤ 4095) : exec i s = .next done :=
  hexec.trans (checkMem_ok s done (effAddr s k) h)

/-- A meaning that is a bounds check faults, with no effect, when its highest address is not in memory (R222). -/
theorem exec_of_checkMem_fault {i : Instr} {s done : State} {k : Nat}
    (hexec : exec i s = checkMem s (effAddr s k) done) (h : 4095 < s.I.toNat + k) :
    exec i s = .next { s with fault := some (.memOutOfBounds (s.I.toNat + k)) } :=
  hexec.trans (checkMem_fault s done (effAddr s k) h)

end Sys2Proof.Proofs
end

section
/-! PROOFS. The index-register and memory statements: the two index writes, the decimal digits and the two bulk
transfers (R180 to R184). -/

namespace Sys2Proof.Proofs

open Sys2Proof.Machine Sys2Proof.Claims

/-! ### The meanings, through the shared operations -/

theorem exec_ldI (nnn : BitVec 12) (s : State) :
    exec (.ldI nnn) s = .next (advance (setI s (zext12 nnn)) 2) := rfl

theorem exec_addI (x : Reg) (s : State) :
    exec (.addI x) s = .next (advance (setI s (s.I + zext8 (getV s x))) 2) := rfl

theorem exec_ldB (x : Reg) (s : State) :
    exec (.ldB x) s = checkMem s (effAddr s 2) (advance (storeBcd s (getV s x)) 2) := rfl

theorem exec_storeRegs (x : Reg) (s : State) :
    exec (.storeRegs x) s = checkMem s (effAddr s x.val) (advance (storeRegList s (regsUpTo x)) 2) := rfl

theorem exec_loadRegs (x : Reg) (s : State) :
    exec (.loadRegs x) s = checkMem s (effAddr s x.val) (advance (loadRegList s (regsUpTo x)) 2) := rfl

/-! ### The decimal digits (R182) -/

theorem hundreds_toNat (v : Byte) : (hundreds v).toNat = v.toNat / 100 := by
  have hv : v.toNat < 256 := v.isLt
  rw [hundreds, BitVec.toNat_ofNat]
  omega

theorem tens_toNat (v : Byte) : (tens v).toNat = v.toNat / 10 % 10 := by
  rw [tens, BitVec.toNat_ofNat]
  omega

theorem ones_toNat (v : Byte) : (ones v).toNat = v.toNat % 10 := by
  rw [ones, BitVec.toNat_ofNat]
  omega

/-- A byte of memory after the three digits are stored. -/
theorem readByte_storeBcd (s : State) (v : Byte) (a : Nat) :
    readByte (storeBcd s v) a =
      if a = s.I.toNat + 2 then ones v else if a = s.I.toNat + 1 then tens v
      else if a = s.I.toNat then hundreds v else readByte s a := by
  simp only [storeBcd, readByte_writeByte, effAddr, Nat.add_zero]

theorem readByte_storeBcd_other (s : State) (v : Byte) (a : Nat) (h : a < s.I.toNat ∨ s.I.toNat + 2 < a) :
    readByte (storeBcd s v) a = readByte s a := by
  rw [readByte_storeBcd, if_neg (by omega), if_neg (by omega), if_neg (by omega)]

/-! ### The frames of the transfers -/

theorem advance_storeBcd_eq (s : State) (v : Byte) (k : Nat) :
    advance (storeBcd s v) k = { s with memory := (storeBcd s v).memory, pc := pcPlus s k } := by
  rw [advance_eq]
  rfl

theorem advance_storeRegList_eq (s : State) (l : List Reg) (k : Nat) :
    advance (storeRegList s l) k = { s with memory := (storeRegList s l).memory, pc := pcPlus s k } := by
  rw [advance_eq, storeRegList_eq]
  rfl

theorem advance_loadRegList_eq (s : State) (l : List Reg) (k : Nat) :
    advance (loadRegList s l) k = { s with V := (loadRegList s l).V, pc := pcPlus s k } := by
  rw [advance_eq, loadRegList_eq]
  rfl

/-- A bulk store of the registers 0 to x leaves the bytes outside `I` to `I + x` alone (R183). -/
theorem readByte_storeRegList_outside (s : State) (x : Reg) (a : Nat)
    (h : a < s.I.toNat ∨ s.I.toNat + x.val < a) :
    readByte (storeRegList s (regsUpTo x)) a = readByte s a := by
  refine readByte_storeRegList_other (regsUpTo x) s a fun r hr => ?_
  have hle : r.val ≤ x.val := (mem_regsUpTo x r).mp hr
  omega

/-! ### The statements -/

/-- Settles O43: group A and group F with low nibble 0xE, whose meanings are one write of `I` each. -/
theorem indexLoadAndAdd : Obligations.IndexLoadAndAdd := by
  unfold Obligations.IndexLoadAndAdd
  refine ⟨decodesAs_F000 fun w (hop : Field.op w = 0xA#4) => ?_,
    decodesAs_groupF rfl fun w (hn : Field.n w = 0xE#4) => ?_, fun nnn s => ?_, fun x s => ?_⟩
  · simp only [decodeWord, hop, Field.nnn_eq_nnnOf]
  · simp only [decodeGroupF, hn]
  · rw [exec_ldI, advance_setI_eq, zext12_eq_ofNat]
  · rw [exec_addI, advance_setI_eq, add_zext8_eq_ofNat]

/-- Settles O44: within memory the three stores are to distinct addresses, so each digit is read where it was stored;
past memory the bounds check comes before every store. -/
theorem storeDecimalDigits : Obligations.StoreDecimalDigits := by
  unfold Obligations.StoreDecimalDigits
  refine ⟨decodesAs_groupF rfl fun w (hn : Field.n w = 0x3#4) => ?_, fun x s h => ?_,
    fun x s h => exec_of_checkMem_fault (exec_ldB x s) h⟩
  · simp only [decodeGroupF, hn]
  · refine ⟨advance (storeBcd s (getV s x)) 2, exec_of_checkMem_ok (exec_ldB x s) h, ?_, ?_, ?_, fun a ha => ?_,
      advance_storeBcd_eq s (getV s x) 2⟩
    · rw [readByte_advance, readByte_storeBcd, if_neg (by omega), if_neg (by omega), if_pos rfl, hundreds_toNat]
    · rw [readByte_advance, readByte_storeBcd, if_neg (by omega), if_pos rfl, tens_toNat]
    · rw [readByte_advance, readByte_storeBcd, if_pos rfl, ones_toNat]
    · rw [readByte_advance, readByte_storeBcd_other s (getV s x) a ha]

/-- Settles O45: the registers 0 to x are listed once each, so every one of them is read where it was stored. -/
theorem bulkStore : Obligations.BulkStore := by
  unfold Obligations.BulkStore
  refine ⟨decodesAs_groupF5 rfl rfl fun w (hy : Field.ysel w = 0x5#4) => ?_, fun x s h => ?_,
    fun x s h => exec_of_checkMem_fault (exec_storeRegs x s) h⟩
  · simp only [decodeGroupF5, hy]
  · refine ⟨advance (storeRegList s (regsUpTo x)) 2, exec_of_checkMem_ok (exec_storeRegs x s) h, fun r hr => ?_,
      fun a ha => ?_, advance_storeRegList_eq s (regsUpTo x) 2⟩
    · rw [readByte_advance]
      exact readByte_storeRegList_mem (regsUpTo x) s (nodup_regsUpTo x) r ((mem_regsUpTo x r).mpr hr)
    · rw [readByte_advance, readByte_storeRegList_outside s x a ha]

/-- Settles O46: a register is listed exactly when it is at most x, and no load changes the bytes the later ones read. -/
theorem bulkLoad : Obligations.BulkLoad := by
  unfold Obligations.BulkLoad
  refine ⟨decodesAs_groupF5 rfl rfl fun w (hy : Field.ysel w = 0x6#4) => ?_, fun x s h => ?_,
    fun x s h => exec_of_checkMem_fault (exec_loadRegs x s) h⟩
  · simp only [decodeGroupF5, hy]
  · refine ⟨advance (loadRegList s (regsUpTo x)) 2, exec_of_checkMem_ok (exec_loadRegs x s) h, fun r hr => ?_,
      fun r hr => ?_, advance_loadRegList_eq s (regsUpTo x) 2⟩
    · rw [getV_advance, getV_loadRegList, if_pos ((mem_regsUpTo x r).mpr hr)]
    · rw [getV_advance, getV_loadRegList, if_neg fun hmem => not_le_of_gt hr ((mem_regsUpTo x r).mp hmem)]

end Sys2Proof.Proofs
end

section
/-! PROOFS. The font statement (R193). -/

namespace Sys2Proof.Proofs

open Sys2Proof.Machine Sys2Proof.Claims

theorem exec_ldF (x : Reg) (s : State) :
    exec (.ldF x) s = .next (advance (setI s (glyphAddr (getV s x))) 2) := rfl

/-- The mask that selects a glyph keeps the low nibble (R193). -/
theorem and_0F_toNat (v : Byte) : (v &&& 0x0F#8).toNat = v.toNat % 16 := by
  rw [BitVec.toNat_and]
  exact Nat.and_two_pow_sub_one_eq_mod v.toNat 4

theorem glyphAddr_eq_ofNat (v : Byte) : glyphAddr v = BitVec.ofNat 16 (5 * (v.toNat % 16)) := by
  rw [glyphAddr, and_0F_toNat]

/-- Settles O48: group F with low nibble 9, whose meaning is one write of `I` with the glyph's address. -/
theorem fontAddress : Obligations.FontAddress := by
  unfold Obligations.FontAddress
  refine ⟨decodesAs_groupF rfl fun w (hn : Field.n w = 0x9#4) => ?_, fun x s => ?_⟩
  · simp only [decodeGroupF, hn]
  · rw [exec_ldF, advance_setI_eq, glyphAddr_eq_ofNat]

end Sys2Proof.Proofs
end

section
/-! PROOFS. The fetch fault (R221). The one fact it turns on is about the execute phase: an instruction either leaves the
fault register alone or raises one of the four faults that are not the fetch fault, and then with no other effect
(R220, R224). -/

namespace Sys2Proof.Proofs

open Sys2Proof.Machine Sys2Proof.Claims

/-- The faults the execute phase can raise: codes 2 to 5 of R220, all but the fetch fault. -/
def isExecuteFault : CoreFault → Bool
  | .fetchOutOfBounds _ => false
  | _ => true

theorem ne_fetchOutOfBounds_of_isExecuteFault {f : CoreFault} (h : isExecuteFault f = true) (p : Word) :
    f ≠ .fetchOutOfBounds p := by
  rintro rfl
  exact absurd h Bool.false_ne_true

/-- What an answer from `s` does with the fault register: it keeps it, or it raises an execute fault with no other
effect. -/
def KeepsFaultOrRaises (s : State) (r : Result) : Prop :=
  ∃ t, r = .next t ∧ (t.fault = s.fault ∨ ∃ f, isExecuteFault f = true ∧ t = raise s f)

/-! ### The forms of an answer -/

theorem keepsFaultOrRaises_next {s t : State} (h : t.fault = s.fault) : KeepsFaultOrRaises s (.next t) :=
  ⟨t, rfl, .inl h⟩

theorem keepsFaultOrRaises_checkMem {s done : State} (a : Nat) (h : done.fault = s.fault) :
    KeepsFaultOrRaises s (checkMem s a done) := by
  obtain ⟨t, ht⟩ := checkMem_next s done a
  refine ⟨t, ht, ?_⟩
  obtain ⟨-, rfl⟩ | ⟨-, rfl⟩ := checkMem_cases ht
  · exact .inl h
  · exact .inr ⟨_, rfl, rfl⟩

theorem keepsFaultOrRaises_checkKey {s : State} {done : Key → State} (v : Byte) (h : ∀ k, (done k).fault = s.fault) :
    KeepsFaultOrRaises s (checkKey s v done) := by
  obtain ⟨t, ht⟩ := checkKey_next s v done
  refine ⟨t, ht, ?_⟩
  obtain ⟨-, rfl⟩ | ⟨-, rfl⟩ := checkKey_cases ht
  · exact .inl (h _)
  · exact .inr ⟨_, rfl, rfl⟩

theorem keepsFaultOrRaises_pushStack {s : State} {done : State → State} (v : Word)
    (h : ∀ t, (done t).fault = t.fault) : KeepsFaultOrRaises s (pushStack s v done) := by
  obtain ⟨t, ht⟩ := pushStack_next s v done
  refine ⟨t, ht, ?_⟩
  obtain ⟨-, rfl⟩ | ⟨-, rfl⟩ := pushStack_cases ht
  · exact .inl (h _)
  · exact .inr ⟨_, rfl, rfl⟩

theorem keepsFaultOrRaises_popStack {s : State} {done : Word → State → State}
    (h : ∀ a t, (done a t).fault = t.fault) : KeepsFaultOrRaises s (popStack s done) := by
  obtain ⟨t, ht⟩ := popStack_next s done
  refine ⟨t, ht, ?_⟩
  obtain ⟨-, rfl⟩ | ⟨-, rfl⟩ := popStack_cases ht
  · exact .inl (h _ _)
  · exact .inr ⟨_, rfl, rfl⟩

/-! ### The effects leave the fault register alone -/

@[simp] theorem storeRegList_fault (s : State) (l : List Reg) : (storeRegList s l).fault = s.fault := by
  rw [storeRegList_eq]

@[simp] theorem loadRegList_fault (s : State) (l : List Reg) : (loadRegList s l).fault = s.fault := by
  rw [loadRegList_eq]

@[simp] theorem drawRows_fault (s : State) (vx vy n : Nat) : (drawRows s vx vy n).fault = s.fault := by
  rw [drawRows_frame s vx vy n]

@[simp] theorem tick_fault (s : State) : (tick s).fault = s.fault := by
  rw [tick_eq]

theorem keepsFaultOrRaises_execLdKey (x : Reg) (s : State) : KeepsFaultOrRaises s (execLdKey x s) := by
  unfold execLdKey
  split
  · exact keepsFaultOrRaises_next rfl
  · exact keepsFaultOrRaises_next rfl

/-! ### The execute phase and the step -/

/-- Every instruction keeps the fault register or raises an execute fault: the stack operations, the memory transfers
and the key skips go through their checks, and every other instruction completes (R220). -/
theorem exec_keepsFaultOrRaises (i : Instr) (s : State) : KeepsFaultOrRaises s (exec i s) := by
  cases i
  case call nnn => exact keepsFaultOrRaises_pushStack s.pc fun t => setPc_fault t (zext12 nnn)
  case ret => exact keepsFaultOrRaises_popStack fun a t => setPc_fault t (a + 2)
  case ldB x => exact keepsFaultOrRaises_checkMem (effAddr s 2) rfl
  case storeRegs x => exact keepsFaultOrRaises_checkMem (effAddr s x.val) (storeRegList_fault s (regsUpTo x))
  case loadRegs x => exact keepsFaultOrRaises_checkMem (effAddr s x.val) (loadRegList_fault s (regsUpTo x))
  case drw x y n => exact keepsFaultOrRaises_checkMem (spriteTop s n.toNat) (drawRows_fault (setV s VF 0) _ _ _)
  case skp x => exact keepsFaultOrRaises_checkKey (getV s x) fun k => skipIf_fault s.keys[k] s
  case sknp x => exact keepsFaultOrRaises_checkKey (getV s x) fun k => skipIf_fault (!s.keys[k]) s
  case ldKey x => exact keepsFaultOrRaises_execLdKey x s
  all_goals exact keepsFaultOrRaises_next rfl

/-- A step that fetches ends with no fault or with an execute fault: the tick touches no fault (R121, R127, R220). -/
theorem step_fault_of_fetch {s u : State} (hf : s.fault = none) (hp : s.pc.toNat ≤ 4094) (h : step s = .next u) :
    u.fault = none ∨ ∃ f, isExecuteFault f = true ∧ u.fault = some f := by
  obtain ⟨hhalt, -⟩ | ⟨-, hpast, -⟩ | ⟨-, -, t, hexec, hend⟩ := step_cases h
  · exact absurd hf hhalt
  · exact absurd hpast (not_lt_of_ge hp)
  · have hu : u.fault = t.fault := by
      obtain ⟨-, rfl⟩ | ⟨-, rfl⟩ := hend
      · rfl
      · exact tick_fault t
    obtain ⟨t', hexec', hfault⟩ := exec_keepsFaultOrRaises _ _
    obtain rfl : t = t' := Host.Outcome.next.inj (hexec.symm.trans hexec')
    obtain hkeep | ⟨f, hf', rfl⟩ := hfault
    · exact .inl ((hu.trans hkeep).trans hf)
    · exact .inr ⟨f, hf', hu⟩

/-! ### The statement -/

/-- Settles O2: past 4094 the step is the fetch fault, and a step that fetches raises execute faults only. -/
theorem fetchPastEndFaults : Obligations.FetchPastEndFaults := by
  unfold Obligations.FetchPastEndFaults
  refine ⟨step_fetch_fault, fun s u p hf hp h => ?_⟩
  obtain hnone | ⟨f, hf', hsome⟩ := step_fault_of_fetch hf hp h
  · simp [hnone]
  · rw [hsome]
    exact fun he => ne_fetchOutOfBounds_of_isExecuteFault hf' p (Option.some.inj he)

end Sys2Proof.Proofs
end

section
/-! PROOFS. The host loads an image that does not fit (70_reset_and_hazards.md R263): a schedule passes from one
operation to the next, and an oversized image is rejected with the state as it was. -/

namespace Sys2Proof.Proofs

open Sys2Proof.Machine

/-! ### Schedules (R234) -/

theorem runSchedule_cons_of_next {op : HostOp} {s t : State} (h : hostEffect op s = .next t) (ops : List HostOp) :
    runSchedule (op :: ops) s = runSchedule ops t := by
  rw [runSchedule, h]

/-- A schedule of one operation is that operation, whichever way it ends. -/
theorem runSchedule_singleton (op : HostOp) (s : State) : runSchedule [op] s = hostEffect op s := by
  rw [runSchedule]
  cases hostEffect op s with
  | next t => rfl
  | fault r => rfl
  | refused r => rfl

/-! ### An image that does not fit (R263) -/

theorem imageFits_iff (bytes : List Byte) : imageFits bytes = true ↔ bytes.length ≤ 3584 := decide_eq_true_iff

theorem loadProgram_of_not_fits {bytes : List Byte} (h : ¬imageFits bytes = true) (s : State) :
    loadProgram bytes s = s := if_neg h

theorem hostReply_loadProgram_of_not_fits {bytes : List Byte} (h : ¬imageFits bytes = true) (s : State) :
    hostReply (.loadProgram bytes) s = .rejected := if_neg h

theorem hostEffect_loadProgram_of_not_fits {bytes : List Byte} (h : ¬imageFits bytes = true) (s : State) :
    hostEffect (.loadProgram bytes) s = .next s := congrArg Host.Outcome.next (loadProgram_of_not_fits h s)

/-- Settles O20: the rejected load leaves the state as it was, so the schedule goes on with the step from that state. -/
theorem loadProgramRejectsOversize : Obligations.LoadProgramRejectsOversize := by
  unfold Obligations.LoadProgramRejectsOversize
  intro bytes s hlong
  have hfit : ¬imageFits bytes = true := fun h => not_le_of_gt hlong ((imageFits_iff bytes).mp h)
  have heffect : hostEffect (.loadProgram bytes) s = .next s := hostEffect_loadProgram_of_not_fits hfit s
  refine ⟨hostReply_loadProgram_of_not_fits hfit s, heffect, ?_⟩
  calc runSchedule [.loadProgram bytes, .step] s
      = runSchedule [.step] s := runSchedule_cons_of_next heffect [.step]
    _ = hostEffect .step s := runSchedule_singleton .step s
    _ = step s := rfl

end Sys2Proof.Proofs
end

section
/-! PROOFS. The decoder as a whole (30_encoding.md): every word stands in a row of the opcode map or in the table of
unknown words (R99, R101), and no word stands in two rows. -/

namespace Sys2Proof.Proofs

open Sys2Proof.Machine Sys2Proof.Claims

/-! ### The table of unknown words, group by group (R101) -/

theorem Field.op_toNat_of_eq {w : Word} {c : BitVec 4} (h : Field.op w = c) : w.toNat / 4096 = c.toNat := by
  rw [← Field.op_toNat, h]

theorem isUnknownWord_group0 {w : Word} (hop : Field.op w = 0x0#4) (h : Field.n w ∉ [0x0#4, 0xE#4]) :
    isUnknownWord w = true := by
  have hlist : ∀ n : BitVec 4, n ∉ [0x0#4, 0xE#4] →
      [1, 2, 3, 4, 5, 6, 7, 8, 9, 0xA, 0xB, 0xC, 0xD, 0xF].contains n.toNat = true := by decide
  simp only [isUnknownWord, Field.op_toNat_of_eq hop, ← Field.n_toNat]
  exact hlist _ h

theorem isUnknownWord_group8 {w : Word} (hop : Field.op w = 0x8#4)
    (h : Field.n w ∉ [0x0#4, 0x1#4, 0x2#4, 0x3#4, 0x4#4, 0x5#4, 0x6#4, 0x7#4, 0xE#4]) : isUnknownWord w = true := by
  have hlist : ∀ n : BitVec 4, n ∉ [0x0#4, 0x1#4, 0x2#4, 0x3#4, 0x4#4, 0x5#4, 0x6#4, 0x7#4, 0xE#4] →
      [8, 9, 0xA, 0xB, 0xC, 0xD, 0xF].contains n.toNat = true := by decide
  simp only [isUnknownWord, Field.op_toNat_of_eq hop, ← Field.n_toNat]
  exact hlist _ h

theorem isUnknownWord_groupE {w : Word} (hop : Field.op w = 0xE#4) (h : Field.nn w ∉ [0x9E#8, 0xA1#8]) :
    isUnknownWord w = true := by
  have hlist : ∀ nn : Byte, nn ∉ [0x9E#8, 0xA1#8] → (!([0x9E, 0xA1].contains nn.toNat)) = true := by decide
  simp only [isUnknownWord, Field.op_toNat_of_eq hop, ← Field.nn_toNat]
  exact hlist _ h

theorem isUnknownWord_groupF {w : Word} (hop : Field.op w = 0xF#4)
    (h : Field.n w ∉ [0x3#4, 0x5#4, 0x7#4, 0x8#4, 0x9#4, 0xA#4, 0xE#4]) : isUnknownWord w = true := by
  have hlist : ∀ n : BitVec 4, n ∉ [0x3#4, 0x5#4, 0x7#4, 0x8#4, 0x9#4, 0xA#4, 0xE#4] →
      [0, 1, 2, 4, 6, 0xB, 0xC, 0xD, 0xF].contains n.toNat = true := by decide
  simp only [isUnknownWord, Field.op_toNat_of_eq hop, ← Field.n_toNat, hlist _ h]
  rfl

theorem isUnknownWord_groupF5 {w : Word} (hop : Field.op w = 0xF#4) (hn : Field.n w = 0x5#4)
    (h : Field.ysel w ∉ [0x1#4, 0x5#4, 0x6#4]) : isUnknownWord w = true := by
  have hlist : ∀ y : BitVec 4, y ∉ [0x1#4, 0x5#4, 0x6#4] → (!([1, 5, 6].contains y.toNat)) = true := by decide
  simp only [isUnknownWord, Field.op_toNat_of_eq hop, ← Field.n_toNat, hn, ← Field.ysel_toNat, hlist _ h]
  rfl

/-! ### Every word stands in a row or in the table (R99, R101) -/

/-- The word selects the instruction's row of the opcode map, and the instruction's operands are its fields. -/
def InRow (w : Word) (i : Instr) : Prop :=
  (∃ r, opcodeMap[i.rowIndex]? = some r ∧ r.selects w = true) ∧ operandsFrom w i = true

/-- What the decoder may answer: the instruction of a row the word selects, or the unknown opcode of a listed word. -/
def Decoded (w : Word) (i : Instr) : Prop := InRow w i ∨ (i = .unknown w ∧ isUnknownWord w = true)

theorem decoded_F000 {w bits : Word} {i : Instr} (hrow : opcodeMap[i.rowIndex]? = some ⟨0xF000, bits⟩)
    (hbits : Field.op w ++ 0#12 = bits) (hargs : operandsFrom w i = true) : Decoded w i :=
  .inl ⟨⟨_, hrow, by rw [OpRow.selects, and_F000, hbits, beq_self_eq_true]⟩, hargs⟩

theorem decoded_F00F {w bits : Word} {i : Instr} (hrow : opcodeMap[i.rowIndex]? = some ⟨0xF00F, bits⟩)
    (hbits : Field.op w ++ 0#8 ++ Field.n w = bits) (hargs : operandsFrom w i = true) : Decoded w i :=
  .inl ⟨⟨_, hrow, by rw [OpRow.selects, and_F00F, hbits, beq_self_eq_true]⟩, hargs⟩

theorem decoded_F0FF {w bits : Word} {i : Instr} (hrow : opcodeMap[i.rowIndex]? = some ⟨0xF0FF, bits⟩)
    (hbits : Field.op w ++ 0#4 ++ Field.nn w = bits) (hargs : operandsFrom w i = true) : Decoded w i :=
  .inl ⟨⟨_, hrow, by rw [OpRow.selects, and_F0FF, hbits, beq_self_eq_true]⟩, hargs⟩

/-- The low byte is its two nibbles (R9). -/
theorem Field.nn_eq_append (w : Word) : Field.nn w = Field.ysel w ++ Field.n w := by
  apply BitVec.eq_of_toNat_eq
  rw [toNat_append_add, Field.nn_toNat, Field.ysel_toNat, Field.n_toNat]
  omega

theorem Field.n_eq_nOf (w : Word) : Field.n w = nOf w :=
  BitVec.eq_of_toNat_eq (by rw [Field.n_toNat, nOf, BitVec.toNat_ofNat])

@[simp] theorem Field.x_beq_xOf (w : Word) : (Field.x w == xOf w) = true := beq_iff_eq.mpr (Field.x_eq_xOf w)
@[simp] theorem Field.y_beq_yOf (w : Word) : (Field.y w == yOf w) = true := beq_iff_eq.mpr (Field.y_eq_yOf w)
@[simp] theorem Field.nn_beq_nnOf (w : Word) : (Field.nn w == nnOf w) = true := beq_iff_eq.mpr (Field.nn_eq_nnOf w)
@[simp] theorem Field.nnn_beq_nnnOf (w : Word) : (Field.nnn w == nnnOf w) = true := beq_iff_eq.mpr (Field.nnn_eq_nnnOf w)
@[simp] theorem Field.n_beq_nOf (w : Word) : (Field.n w == nOf w) = true := beq_iff_eq.mpr (Field.n_eq_nOf w)

theorem decoded_group0 {w : Word} (hop : Field.op w = 0x0#4) : Decoded w (decodeGroup0 w) := by
  unfold decodeGroup0
  split
  next hn => exact decoded_F00F rfl (by rw [hop, hn]; rfl) rfl
  next hn => exact decoded_F00F rfl (by rw [hop, hn]; rfl) rfl
  next h0 hE => exact .inr ⟨rfl, isUnknownWord_group0 hop (by simpa using ⟨h0, hE⟩)⟩

theorem decoded_group8 {w : Word} (hop : Field.op w = 0x8#4) : Decoded w (decodeGroup8 w) := by
  unfold decodeGroup8
  split
  case h_10 h0 h1 h2 h3 h4 h5 h6 h7 hE =>
    exact .inr ⟨rfl, isUnknownWord_group8 hop (by simpa using ⟨h0, h1, h2, h3, h4, h5, h6, h7, hE⟩)⟩
  all_goals
    rename_i hn
    exact decoded_F00F rfl (by rw [hop, hn]; rfl) (by simp [operandsFrom])

theorem decoded_groupE {w : Word} (hop : Field.op w = 0xE#4) : Decoded w (decodeGroupE w) := by
  unfold decodeGroupE
  split
  next hnn => exact decoded_F0FF rfl (by rw [hop, hnn]; rfl) (by simp [operandsFrom])
  next hnn => exact decoded_F0FF rfl (by rw [hop, hnn]; rfl) (by simp [operandsFrom])
  next hskp hsknp => exact .inr ⟨rfl, isUnknownWord_groupE hop (by simpa using ⟨hskp, hsknp⟩)⟩

theorem decoded_groupF5 {w : Word} (hop : Field.op w = 0xF#4) (hn : Field.n w = 0x5#4) :
    Decoded w (decodeGroupF5 w) := by
  unfold decodeGroupF5
  split
  case h_4 h1 h5 h6 => exact .inr ⟨rfl, isUnknownWord_groupF5 hop hn (by simpa using ⟨h1, h5, h6⟩)⟩
  all_goals
    rename_i hy
    exact decoded_F0FF rfl (by rw [Field.nn_eq_append, hop, hy, hn]; rfl) (by simp [operandsFrom])

theorem decoded_groupF {w : Word} (hop : Field.op w = 0xF#4) : Decoded w (decodeGroupF w) := by
  unfold decodeGroupF
  split
  case h_2 hn => exact decoded_groupF5 hop hn
  case h_8 h3 h5 h7 h8 h9 hA hE =>
    exact .inr ⟨rfl, isUnknownWord_groupF hop (by simpa using ⟨h3, h5, h7, h8, h9, hA, hE⟩)⟩
  all_goals
    rename_i hn
    exact decoded_F00F rfl (by rw [hop, hn]; rfl) (by simp [operandsFrom])

theorem Field.op_eq_F {w : Word} (h : Field.op w ∉ [0x0#4, 0x1#4, 0x2#4, 0x3#4, 0x4#4, 0x5#4, 0x6#4, 0x7#4, 0x8#4,
    0x9#4, 0xA#4, 0xB#4, 0xC#4, 0xD#4, 0xE#4]) : Field.op w = 0xF#4 := by
  revert h
  generalize Field.op w = op
  revert op
  decide

/-- The decoder answers the instruction of a row the word selects, or the unknown opcode of a listed word. -/
theorem decoded_decodeWord (w : Word) : Decoded w (decodeWord w) := by
  unfold decodeWord
  split
  case h_1 hop => exact decoded_group0 hop
  case h_9 hop => exact decoded_group8 hop
  case h_15 hop => exact decoded_groupE hop
  case h_16 h0 h1 h2 h3 h4 h5 h6 h7 h8 h9 hA hB hC hD hE =>
    exact decoded_groupF (Field.op_eq_F (by simpa using ⟨h0, h1, h2, h3, h4, h5, h6, h7, h8, h9, hA, hB, hC, hD, hE⟩))
  all_goals
    rename_i hop
    exact decoded_F000 rfl (by rw [hop]; rfl) (by simp [operandsFrom])

/-! ### The rows are disjoint (R99) -/

/-- What two rows that one word selects have in common: their bits agree where both masks look. -/
theorem bits_and_mask_eq {w : Word} {r q : OpRow} (hr : r.selects w = true) (hq : q.selects w = true) :
    r.bits &&& q.mask = q.bits &&& r.mask := by
  rw [OpRow.selects, beq_iff_eq] at hr hq
  rw [← hr, ← hq, BitVec.and_assoc, BitVec.and_assoc, BitVec.and_comm r.mask]

/-- Any two rows of the opcode map differ in a bit both masks look at. -/
theorem eq_of_bits_and_mask_eq : ∀ j k : Fin opcodeMap.length,
    opcodeMap[j].bits &&& opcodeMap[k].mask = opcodeMap[k].bits &&& opcodeMap[j].mask → j = k := by decide

/-- Settles O25: the bits of two rows that one word selects agree under both masks, and no two rows' bits do. -/
theorem opcodeRowsAreDisjoint : Obligations.OpcodeRowsAreDisjoint := by
  unfold Obligations.OpcodeRowsAreDisjoint
  intro w j k hj hk hsj hsk
  exact congrArg Fin.val (eq_of_bits_and_mask_eq ⟨j, hj⟩ ⟨k, hk⟩ (bits_and_mask_eq hsj hsk))

/-! ### The statements about decoding any word -/

theorem decoded_of_not_selects {w : Word} (h : ∀ r ∈ opcodeMap, r.selects w = false) :
    decodeWord w = .unknown w ∧ isUnknownWord w = true := by
  obtain ⟨⟨r, hrow, hsel⟩, -⟩ | hunknown := decoded_decodeWord w
  · exact absurd hsel (by simp [h r (List.mem_of_getElem? hrow)])
  · exact hunknown

/-- The row a word selects is the first one it selects, since it selects no other (R99). -/
theorem findIdx_selects {w : Word} {k : Nat} {r : OpRow} (hrow : opcodeMap[k]? = some r) (hsel : r.selects w = true) :
    opcodeMap.findIdx (fun q => q.selects w) = k := by
  obtain ⟨hk, rfl⟩ := List.getElem?_eq_some_iff.mp hrow
  have hlt : opcodeMap.findIdx (fun q => q.selects w) < opcodeMap.length :=
    List.findIdx_lt_length_of_exists ⟨_, List.getElem_mem hk, hsel⟩
  exact opcodeRowsAreDisjoint w _ k hlt hk (List.findIdx_getElem (w := hlt)) hsel

/-- Settles O24: the decoded row is selected, and the rows are disjoint; an unknown word selects none. -/
theorem decodeFollowsOpcodeMap : Obligations.DecodeFollowsOpcodeMap := by
  unfold Obligations.DecodeFollowsOpcodeMap
  intro w
  obtain ⟨⟨r, hrow, hsel⟩, hargs⟩ | ⟨hdec, hlisted⟩ := decoded_decodeWord w
  · exact ⟨(findIdx_selects hrow hsel).symm, hargs⟩
  · have hnone : opcodeMap.findIdx (fun r => r.selects w) = opcodeMap.length :=
      List.findIdx_eq_length.mpr (Laws.SelectsRow.not_selects_of_unknown w hlisted)
    rw [hdec, hnone]
    exact ⟨rfl, beq_self_eq_true w⟩

theorem decodeWord_of_isUnknownWord {w : Word} (h : isUnknownWord w = true) : decodeWord w = .unknown w :=
  (decoded_of_not_selects (Laws.SelectsRow.not_selects_of_unknown w h)).1

/-- An instruction that stands in a row of the opcode map is no unknown opcode. -/
theorem ne_unknown_of_inRow {w v : Word} {i : Instr} (h : InRow w i) : i ≠ .unknown v := by
  rintro rfl
  obtain ⟨⟨r, hrow, -⟩, -⟩ := h
  exact absurd hrow (by simp [Instr.rowIndex, opcodeMap])

theorem wf_of_ne_unknown {i : Instr} (h : ∀ v, i ≠ .unknown v) : i.wf = true := by
  cases i
  case unknown v => exact absurd rfl (h v)
  all_goals rfl

/-- Settles O26: the instruction of a row is no unknown opcode, and a listed word selects no row. -/
theorem unknownWordsAreThoseListed : Obligations.UnknownWordsAreThoseListed := by
  unfold Obligations.UnknownWordsAreThoseListed
  intro w
  obtain hrow | ⟨hdec, hlisted⟩ := decoded_decodeWord w
  · exact ⟨⟨fun h => absurd h (ne_unknown_of_inRow hrow),
      fun h => absurd (decodeWord_of_isUnknownWord h) (ne_unknown_of_inRow hrow)⟩,
      wf_of_ne_unknown fun v => ne_unknown_of_inRow hrow⟩
  · exact ⟨⟨fun _ => hlisted, fun _ => hdec⟩, by rw [hdec]; exact hlisted⟩

end Sys2Proof.Proofs
end

section
/-! PROOFS. Encoding and decoding undo each other (R100, R103). -/

namespace Sys2Proof.Proofs

open Sys2Proof.Claims

/-! ### The canonical word, decoded (R100) -/

/-- The decoder reads every well-formed instruction back from its canonical word: each format's fields are read back. -/
theorem decodeWord_encode (i : Instr) (h : i.wf = true) : decodeWord (encode i) = i := by
  cases i
  case cls => rfl
  case ret => rfl
  case unknown w => exact decodeWord_of_isUnknownWord h
  all_goals
    simp [encode, decodeWord, decodeGroup8, decodeGroupE, decodeGroupF, decodeGroupF5, n_encodeXNN,
      ysel_encodeXNN]

/-- Settles O23: the canonical word decodes to the instruction, and its two bytes put together are the word. -/
theorem decodeOfEncode : Obligations.DecodeOfEncode := by
  unfold Obligations.DecodeOfEncode
  intro i rest h
  have hword : decodeWord (encode i) = i := decodeWord_encode i h
  refine ⟨hword, ?_⟩
  rw [encodeBytes, List.cons_append, List.cons_append, List.nil_append, decode, wordOfBytes_bytes, hword]

/-! ### A word put together again from its fields (R91, R103) -/

theorem nnnOf_toNat (w : Word) : (nnnOf w).toNat = w.toNat % 4096 := BitVec.toNat_ofNat ..
theorem nnOf_toNat (w : Word) : (nnOf w).toNat = w.toNat % 256 := BitVec.toNat_ofNat ..
theorem nOf_toNat (w : Word) : (nOf w).toNat = w.toNat % 16 := BitVec.toNat_ofNat ..
theorem xOf_val (w : Word) : (xOf w).val = w.toNat / 256 % 16 := rfl
theorem yOf_val (w : Word) : (yOf w).val = w.toNat / 16 % 16 := rfl

theorem encodeNNN_fields (w : Word) : encodeNNN (Field.op w) (nnnOf w) = w := by
  apply BitVec.eq_of_toNat_eq
  rw [encodeNNN_toNat, Field.op_toNat, nnnOf_toNat]
  omega

theorem encodeXNN_fields (w : Word) : encodeXNN (Field.op w) (xOf w) (nnOf w) = w := by
  apply BitVec.eq_of_toNat_eq
  rw [encodeXNN_toNat, Field.op_toNat, xOf_val, nnOf_toNat]
  omega

theorem encodeXYN_fields (w : Word) : encodeXYN (Field.op w) (xOf w) (yOf w) (nOf w) = w := by
  apply BitVec.eq_of_toNat_eq
  rw [encodeXYN_toNat, Field.op_toNat, xOf_val, yOf_val, nOf_toNat]
  omega

theorem encodeNNN_of_selects {w bits : Word} {op : BitVec 4} {nnn : BitVec 12}
    (h : (OpRow.mk 0xF000 bits).selects w = true) (hop : Field.op bits = op) (hargs : nnn = nnnOf w) :
    encodeNNN op nnn = w := by
  have hbits : w &&& 0xF000 = bits := beq_iff_eq.mp h
  rw [hargs, ← hop, ← hbits, Field.op_and_F000, encodeNNN_fields]

theorem encodeXNN_of_selects {w bits : Word} {op : BitVec 4} {x : Reg} {nn : Byte}
    (h : (OpRow.mk 0xF000 bits).selects w = true) (hop : Field.op bits = op) (hargs : x = xOf w ∧ nn = nnOf w) :
    encodeXNN op x nn = w := by
  have hbits : w &&& 0xF000 = bits := beq_iff_eq.mp h
  rw [hargs.1, hargs.2, ← hop, ← hbits, Field.op_and_F000, encodeXNN_fields]

theorem encodeXNN_of_selects_nn {w bits : Word} {op : BitVec 4} {x : Reg} {nn : Byte}
    (h : (OpRow.mk 0xF0FF bits).selects w = true) (hop : Field.op bits = op) (hnn : Field.nn bits = nn)
    (hargs : x = xOf w) : encodeXNN op x nn = w := by
  have hbits : w &&& 0xF0FF = bits := beq_iff_eq.mp h
  rw [hargs, ← hop, ← hnn, ← hbits, Field.op_and_F0FF, Field.nn_and_F0FF, Field.nn_eq_nnOf, encodeXNN_fields]

theorem encodeXYN_of_selects {w bits : Word} {op n : BitVec 4} {x y : Reg}
    (h : (OpRow.mk 0xF000 bits).selects w = true) (hop : Field.op bits = op)
    (hargs : (x = xOf w ∧ y = yOf w) ∧ n = nOf w) : encodeXYN op x y n = w := by
  obtain ⟨⟨hx, hy⟩, hn⟩ := hargs
  have hbits : w &&& 0xF000 = bits := beq_iff_eq.mp h
  rw [hx, hy, hn, ← hop, ← hbits, Field.op_and_F000, encodeXYN_fields]

theorem encodeXYN_of_selects_n {w bits : Word} {op n : BitVec 4} {x y : Reg}
    (h : (OpRow.mk 0xF00F bits).selects w = true) (hop : Field.op bits = op) (hn : Field.n bits = n)
    (hargs : x = xOf w ∧ y = yOf w) : encodeXYN op x y n = w := by
  have hbits : w &&& 0xF00F = bits := beq_iff_eq.mp h
  rw [hargs.1, hargs.2, ← hop, ← hn, ← hbits, Field.op_and_F00F, Field.n_and_F00F, Field.n_eq_nOf, encodeXYN_fields]

/-- An instruction without ignored bits that stands in a row a word selects, with the word's fields as operands, has the
word as its canonical word: the row's bits and the operands are all of its format. -/
theorem encode_of_inRow {w : Word} {i : Instr} (hrow : InRow w i) (hbits : noIgnoredBits i = true) : encode i = w := by
  have hunknown : ∀ v, i ≠ .unknown v := fun v => ne_unknown_of_inRow hrow
  obtain ⟨⟨r, hr, hsel⟩, hargs⟩ := hrow
  cases i
  all_goals simp only [noIgnoredBits, Bool.false_eq_true] at hbits
  all_goals simp only [operandsFrom, Bool.and_eq_true, beq_iff_eq] at hargs
  case unknown v => exact absurd rfl (hunknown v)
  all_goals obtain rfl := Option.some.inj hr
  case jp | call | ldI | jpV0 => exact encodeNNN_of_selects hsel rfl hargs
  case seImm | sneImm | ldImm | addImm | rnd => exact encodeXNN_of_selects hsel rfl hargs
  case skp | sknp | ldDT | storeRegs | loadRegs => exact encodeXNN_of_selects_nn hsel rfl rfl hargs
  case drw => exact encodeXYN_of_selects hsel rfl hargs
  case ldReg | or | and | xor | addReg | sub | subn => exact encodeXYN_of_selects_n hsel rfl rfl hargs

/-- Settles O27: a word of a row is its instruction's canonical word, and an unknown opcode keeps the whole word. -/
theorem encodeOfDecode : Obligations.EncodeOfDecode := by
  unfold Obligations.EncodeOfDecode
  intro w hbits
  obtain hrow | ⟨hdec, -⟩ := decoded_decodeWord w
  · exact encode_of_inRow hrow hbits
  · rw [hdec, encode]

/-- Settles O28: seventeen closed words, decoded. -/
theorem specWordsDecode : Obligations.SpecWordsDecode := by
  unfold Obligations.SpecWordsDecode
  decide

end Sys2Proof.Proofs
end

section
/-! PROOFS. What the execute phase does, said once (R123, R220, R224): an instruction either raises the fault whose cause
the state holds, with no other effect, or leaves the state it completes with. The frames, the invariant and the
statements about a step are read off these two forms. -/

namespace Sys2Proof.Proofs

open Sys2Proof.Machine Sys2Proof.Claims

/-- The fault an instruction raises in a state, if any: the causes of R220 that lie in the execute phase. -/
def execFault : Instr → State → Option CoreFault
  | .call _, s => if s.sp.val = 16 then some (.stackOverflow s.pc) else none
  | .ret, s => if s.sp.val = 0 then some (.stackUnderflow s.pc) else none
  | .ldB _, s => memFault (s.I.toNat + 2)
  | .storeRegs x, s | .loadRegs x, s => memFault (s.I.toNat + x.val)
  | .drw _ _ n, s => if n.toNat = 0 then none else memFault (s.I.toNat + n.toNat - 1)
  | .skp x, s | .sknp x, s => if 15 < (getV s x).toNat then some (.keyIndexOutOfRange (getV s x)) else none
  | _, _ => none

/-- The state an answer goes on with. -/
def nextOr (s : State) : Result → State
  | .next t => t
  | _ => s

/-- The state an instruction leaves when it raises no fault: for the instructions that make a check, the state the check
lets through; for the key wait, the state before or the key stored; for every other, its one answer. -/
def completed (i : Instr) (s : State) : State :=
  match i with
  | .call nnn =>
    setPc { s with stack := s.stack.setIfInBounds s.sp.val s.pc, sp := Fin.ofNat 17 (s.sp.val + 1) } (zext12 nnn)
  | .ret => setPc { s with sp := Fin.ofNat 17 (s.sp.val - 1) } (s.stack[s.sp.val - 1]'(by omega) + 2)
  | .ldB x => advance (storeBcd s (getV s x)) 2
  | .storeRegs x => advance (storeRegList s (regsUpTo x)) 2
  | .loadRegs x => advance (loadRegList s (regsUpTo x)) 2
  | .drw x y n => advance (drawRows (setV s VF 0) (getV s x).toNat (getV s y).toNat n.toNat) 2
  | .skp x => skipIf s.keys[Fin.ofNat 16 (getV s x).toNat] s
  | .sknp x => skipIf (!s.keys[Fin.ofNat 16 (getV s x).toNat]) s
  | .ldKey x => (lowestKey s).elim s fun k => advance (setV s x (keyByte k)) 2
  | i => nextOr s (exec i s)

/-! ### The checks, as a fault or a state to go on with -/

theorem checkMem_eq (s done : State) (a : Nat) : checkMem s a done = .next ((memFault a).elim done (raise s)) := by
  by_cases h : 4095 < a
  · rw [checkMem_fault s done a h, memFault, if_pos h]
    rfl
  · rw [checkMem_ok s done a (by omega), memFault, if_neg h]
    rfl

/-- The highest address of a sprite is out of memory exactly when it has a row and its last row is (R201, R222). -/
theorem memFault_spriteTop (s : State) (n : Nat) :
    memFault (spriteTop s n) = if n = 0 then none else memFault (s.I.toNat + n - 1) := by
  by_cases h : n = 0
  · rw [spriteTop, if_pos h, if_pos h, memFault, if_neg (by omega)]
  · rw [spriteTop, if_neg h, if_neg h, effAddr, Nat.add_sub_assoc (by omega)]

theorem checkKey_ok {s : State} {v : Byte} {done : Key → State} (h : v.toNat < 16) :
    checkKey s v done = .next (done (Fin.ofNat 16 v.toNat)) := by
  have hkey : (⟨v.toNat, h⟩ : Key) = Fin.ofNat 16 v.toNat := Fin.ext (Nat.mod_eq_of_lt h).symm
  rw [checkKey, dif_pos h, hkey]

theorem checkKey_fault {s : State} {v : Byte} {done : Key → State} (h : 15 < v.toNat) :
    checkKey s v done = .next (raise s (.keyIndexOutOfRange v)) :=
  dif_neg (by omega)

theorem checkKey_eq (s : State) (v : Byte) (done : Key → State) :
    checkKey s v done = .next ((if 15 < v.toNat then some (CoreFault.keyIndexOutOfRange v) else none).elim
      (done (Fin.ofNat 16 v.toNat)) (raise s)) := by
  by_cases h : 15 < v.toNat
  · rw [checkKey_fault h, if_pos h]
    rfl
  · rw [checkKey_ok (by omega), if_neg h]
    rfl

theorem pushStack_eq (s : State) (v : Word) (done : State → State) :
    pushStack s v done = .next ((if s.sp.val = 16 then some (CoreFault.stackOverflow s.pc) else none).elim
      (done { s with stack := s.stack.setIfInBounds s.sp.val v, sp := Fin.ofNat 17 (s.sp.val + 1) }) (raise s)) := by
  by_cases h : s.sp.val = 16
  · rw [pushStack_fault s v done h, if_pos h]
    rfl
  · have hlt : s.sp.val < 16 := by omega
    have hstack : s.stack.set s.sp.val v = s.stack.setIfInBounds s.sp.val v := by
      ext k hk
      rw [Vector.getElem_set, Vector.getElem_setIfInBounds]
    have hsp : (⟨s.sp.val + 1, by omega⟩ : Fin 17) = Fin.ofNat 17 (s.sp.val + 1) :=
      Fin.ext (Nat.mod_eq_of_lt (by omega)).symm
    rw [pushStack_ok s v done hlt, if_neg h, hstack, hsp]
    rfl

theorem popStack_eq (s : State) (done : Word → State → State) :
    popStack s done = .next ((if s.sp.val = 0 then some (CoreFault.stackUnderflow s.pc) else none).elim
      (done (s.stack[s.sp.val - 1]'(by omega)) { s with sp := Fin.ofNat 17 (s.sp.val - 1) }) (raise s)) := by
  by_cases h : s.sp.val = 0
  · rw [popStack_fault s done h, if_pos h]
    rfl
  · have hsp : (⟨s.sp.val - 1, by omega⟩ : Fin 17) = Fin.ofNat 17 (s.sp.val - 1) :=
      Fin.ext (Nat.mod_eq_of_lt (by omega)).symm
    rw [popStack_ok s done (by omega), if_neg h, hsp]
    rfl

theorem execLdKey_eq (x : Reg) (s : State) :
    execLdKey x s = .next ((lowestKey s).elim s fun k => advance (setV s x (keyByte k)) 2) := by
  rw [execLdKey]
  cases lowestKey s <;> rfl

/-! ### The two forms of an answer -/

/-- Every instruction answers a next state: the fault raised, or the state it completes with. -/
theorem exec_eq (i : Instr) (s : State) : exec i s = .next ((execFault i s).elim (completed i s) (raise s)) := by
  cases i
  case call nnn => exact pushStack_eq s s.pc fun t => setPc t (zext12 nnn)
  case ret => exact popStack_eq s fun a t => setPc t (a + 2)
  case ldB x => exact checkMem_eq s _ (effAddr s 2)
  case storeRegs x => exact checkMem_eq s _ (effAddr s x.val)
  case loadRegs x => exact checkMem_eq s _ (effAddr s x.val)
  case drw x y n =>
    rw [execFault, ← memFault_spriteTop]
    exact checkMem_eq s _ (spriteTop s n.toNat)
  case skp x => exact checkKey_eq s (getV s x) fun k => skipIf s.keys[k] s
  case sknp x => exact checkKey_eq s (getV s x) fun k => skipIf (!s.keys[k]) s
  case ldKey x => exact execLdKey_eq x s
  all_goals rfl

theorem exec_of_execFault_none {i : Instr} {s : State} (h : execFault i s = none) :
    exec i s = .next (completed i s) := by
  rw [exec_eq, h, Option.elim_none]

/-- Everything an instruction can do. -/
theorem exec_cases {i : Instr} {s t : State} (h : exec i s = .next t) :
    (∃ f, execFault i s = some f ∧ t = raise s f) ∨ (execFault i s = none ∧ t = completed i s) := by
  rw [exec_eq] at h
  have ht := Host.Outcome.next.inj h
  cases hf : execFault i s with
  | none => exact .inr ⟨rfl, by rw [← ht, hf, Option.elim_none]⟩
  | some f => exact .inl ⟨f, rfl, by rw [← ht, hf, Option.elim_some]⟩

end Sys2Proof.Proofs
end

section
/-! PROOFS. The frames (10_state.md sections 3 and 4, R22, R39): what each instruction leaves unchanged, from the two forms
of its answer. -/

namespace Sys2Proof.Proofs

open Sys2Proof.Machine Sys2Proof.Claims

/-! ### The instructions that loop, as one update of the state -/

theorem completed_storeRegs_eq (x : Reg) (s : State) :
    completed (.storeRegs x) s = { s with memory := (storeRegList s (regsUpTo x)).memory, pc := pcPlus s 2 } :=
  advance_storeRegList_eq s (regsUpTo x) 2

theorem completed_loadRegs_eq (x : Reg) (s : State) :
    completed (.loadRegs x) s = { s with V := (loadRegList s (regsUpTo x)).V, pc := pcPlus s 2 } :=
  advance_loadRegList_eq s (regsUpTo x) 2

/-- Drawing after a register is written changes what drawing and that write may. -/
theorem advance_drawRows_setV_eq (s : State) (r : Reg) (v : Byte) (vx vy n k : Nat) :
    advance (drawRows (setV s r v) vx vy n) k =
      { s with V := (drawRows (setV s r v) vx vy n).V, screen := (drawRows (setV s r v) vx vy n).screen,
               pixelChangeQueue := (drawRows (setV s r v) vx vy n).pixelChangeQueue,
               events := (drawRows (setV s r v) vx vy n).events, pc := pcPlus s k } := by
  rw [advance_eq, drawRows_frame (setV s r v) vx vy n]
  rfl

theorem completed_drw_eq (x y : Reg) (n : BitVec 4) (s : State) :
    completed (.drw x y n) s =
      { s with V := (completed (.drw x y n) s).V, screen := (completed (.drw x y n) s).screen,
               pixelChangeQueue := (completed (.drw x y n) s).pixelChangeQueue,
               events := (completed (.drw x y n) s).events, pc := pcPlus s 2 } :=
  advance_drawRows_setV_eq s VF 0 (getV s x).toNat (getV s y).toNat n.toNat 2

/-- The key wait either stalls or stores a key and goes on (R124, R194). -/
theorem completed_ldKey_cases (x : Reg) (s : State) :
    completed (.ldKey x) s = s ∨ ∃ k, completed (.ldKey x) s = advance (setV s x (keyByte k)) 2 := by
  rw [completed]
  cases lowestKey s with
  | none => exact .inl rfl
  | some k => exact .inr ⟨k, rfl⟩

/-! ### General registers (R22) -/

/-- A completed instruction leaves every register outside the writes column of R22. -/
theorem getV_completed {i : Instr} {r : Reg} (hr : writesReg i r = false) (s : State) :
    getV (completed i s) r = getV s r := by
  cases i
  case ldImm x v | addImm x v | ldReg x v | or x v | and x v | xor x v | rnd x v =>
    exact getV_setV_other s x r _ (beq_eq_false_iff_ne.mp hr)
  case ldFromDT x => exact getV_setV_other s x r _ (beq_eq_false_iff_ne.mp hr)
  case addReg x v | sub x v | subn x v =>
    obtain ⟨hx, hf⟩ := Bool.or_eq_false_iff.mp hr
    exact getV_setFlagThenV_other s x r _ _ (beq_eq_false_iff_ne.mp hx) (beq_eq_false_iff_ne.mp hf)
  case shr x | shl x =>
    obtain ⟨hx, hf⟩ := Bool.or_eq_false_iff.mp hr
    exact getV_setFlagThenV_other s x r _ _ (beq_eq_false_iff_ne.mp hx) (beq_eq_false_iff_ne.mp hf)
  case ldKey x =>
    obtain h | ⟨k, h⟩ := completed_ldKey_cases x s
    · rw [h]
    · rw [h, getV_advance, getV_setV_other s x r _ (beq_eq_false_iff_ne.mp hr)]
  case drw x y n =>
    have hne : r ≠ VF := beq_eq_false_iff_ne.mp hr
    exact (getV_drawRows_other _ _ _ _ r hne).trans (getV_setV_other s VF r 0 hne)
  case loadRegs x =>
    have hout : r ∉ regsUpTo x := fun h => of_decide_eq_false hr ((mem_regsUpTo x r).mp h)
    rw [completed, getV_advance, getV_loadRegList, if_neg hout]
  case storeRegs x => rw [completed_storeRegs_eq]; rfl
  all_goals rfl

/-- Settles O58: a fault writes no register, and a completed instruction writes only those of its column. -/
theorem registerFrame : Obligations.RegisterFrame := by
  unfold Obligations.RegisterFrame
  intro i s t r h hr
  obtain ⟨f, -, rfl⟩ | ⟨-, rfl⟩ := exec_cases h
  · exact getV_raise s f r
  · exact getV_completed hr s

/-! ### Memory (R39, R64) -/

/-- Only the two storing instructions write memory. -/
theorem completed_memory {i : Instr} {s : State} (h : storeAddrs i s = []) : (completed i s).memory = s.memory := by
  cases i
  case ldB x => exact absurd h (List.cons_ne_nil _ _)
  case storeRegs x =>
    have hmem : x ∈ regsUpTo x := (mem_regsUpTo x x).mpr le_rfl
    exact absurd h (List.ne_nil_of_mem (List.mem_map_of_mem hmem))
  case loadRegs x => rw [completed_loadRegs_eq]
  case drw x y n => rw [completed_drw_eq]
  case ldKey x =>
    obtain h | ⟨k, h⟩ := completed_ldKey_cases x s
    · rw [h]
    · rw [h, advance_memory, setV_memory]
  all_goals rfl

/-- A completed instruction leaves every byte it does not store to. -/
theorem readByte_completed {i : Instr} {s : State} {a : Nat} (ha : a ∉ storeAddrs i s) :
    readByte (completed i s) a = readByte s a := by
  cases i
  case ldB x =>
    simp only [storeAddrs, effAddr, Nat.add_zero, List.mem_cons, List.not_mem_nil, or_false, not_or] at ha
    obtain ⟨h0, h1, h2⟩ := ha
    rw [completed, readByte_advance, readByte_storeBcd, if_neg h2, if_neg h1, if_neg h0]
  case storeRegs x =>
    rw [completed, readByte_advance, readByte_storeRegList_other]
    exact fun r hr hra => ha (List.mem_map.mpr ⟨r, hr, hra.symm⟩)
  all_goals rw [readByte, completed_memory rfl, readByte]

/-- Settles O59: a fault stores nothing, and a completed instruction stores only to its addresses. -/
theorem memoryFrame : Obligations.MemoryFrame := by
  unfold Obligations.MemoryFrame
  intro i s t a h ha
  obtain ⟨f, -, rfl⟩ | ⟨-, rfl⟩ := exec_cases h
  · rfl
  · exact readByte_completed ha

/-! ### Special registers (10_state.md section 4) -/

/-- Settles O60: a fault writes the fault register, in the instructions that have one; a completed instruction writes the
special registers named for it. -/
theorem specialRegisterFrame : Obligations.SpecialRegisterFrame := by
  unfold Obligations.SpecialRegisterFrame
  intro i s t h
  obtain ⟨f, hf, rfl⟩ | ⟨-, rfl⟩ := exec_cases h
  · cases i
    case call | ret | skp | sknp | ldB | storeRegs | loadRegs | drw => and_intros <;> trivial
    all_goals exact absurd hf.symm (Option.some_ne_none f)
  · cases i
    case storeRegs x => rw [completed_storeRegs_eq]; and_intros <;> trivial
    case loadRegs x => rw [completed_loadRegs_eq]; and_intros <;> trivial
    case drw x y n => rw [completed_drw_eq]; and_intros <;> trivial
    case ldKey x =>
      obtain h | ⟨k, h⟩ := completed_ldKey_cases x s
      · rw [h]; and_intros <;> trivial
      · rw [h]; and_intros <;> trivial
    all_goals and_intros <;> trivial

end Sys2Proof.Proofs
end

section
/-! PROOFS. The statements about one instruction that need no drawing: the round trip of a call, the indexed jump, the
shifts, the timers, the keys, the clear, the random byte and the unknown opcode (R125, R142 to R148, R171, R173, R190 to
R197, R200, R210). -/

namespace Sys2Proof.Proofs

open Sys2Proof.Machine Sys2Proof.Claims

/-! ### Control flow -/

/-- Settles O32: the entry the return pops is the one the call pushed, and the push wrote no live entry. -/
theorem callThenReturnRoundTrip : Obligations.CallThenReturnRoundTrip := by
  unfold Obligations.CallThenReturnRoundTrip
  intro nnn s h
  obtain ⟨-, hcall, -⟩ := callPushesItsOwnAddress
  obtain ⟨-, hret, -⟩ := returnPopsAndAddsTwo
  refine ⟨_, _, hcall nnn s h, hret _ (Nat.succ_pos s.sp.val), ?_, fun k hk => ?_⟩
  · simp only [Nat.add_sub_cancel, Vector.getElem_set_self]
    rfl
  · exact Vector.getElem_set_ne h k.isLt (by omega)

theorem exec_jpV0 (nnn : BitVec 12) (s : State) :
    exec (.jpV0 nnn) s = .next (setPc s (zext12 nnn + zext8 (getV s 0))) := rfl

/-- A 12-bit address plus a byte is no sum of 16 bits that wraps (R148). -/
theorem zext12_add_zext8_toNat (nnn : BitVec 12) (v : Byte) : (zext12 nnn + zext8 v).toNat = nnn.toNat + v.toNat := by
  have hnnn : nnn.toNat < 4096 := nnn.isLt
  have hv : v.toNat < 256 := v.isLt
  rw [add_zext8_eq_ofNat, zext12_eq_ofNat, BitVec.toNat_ofNat, BitVec.toNat_ofNat]
  omega

/-- Settles O35: group B is the indexed jump, whose sum does not reach 65536. -/
theorem jumpPlusV0 : Obligations.JumpPlusV0 := by
  unfold Obligations.JumpPlusV0
  refine ⟨decodesAs_F000 fun w (hop : Field.op w = 0xB#4) => ?_,
    fun nnn s => ⟨_, exec_jpV0 nnn s, zext12_add_zext8_toNat nnn (getV s 0), rfl⟩⟩
  simp only [decodeWord, hop, Field.nnn_eq_nnnOf]

/-! ### Shifts (R171, R173) -/

theorem exec_shr (x : Reg) (s : State) :
    exec (.shr x) s = writeFlagV s x (lowBit (getV s x)) (getV s x >>> 1) := rfl

theorem exec_shl (x : Reg) (s : State) :
    exec (.shl x) s = writeFlagV s x (highBit (getV s x)) (getV s x <<< 1) := rfl

theorem flagByte_lowBit_toNat (v : Byte) : (flagByte (lowBit v)).toNat = v.toNat % 2 := by
  rw [flagByte_toNat (p := v.toNat % 2 = 1) (by simp [lowBit, BitVec.getLsbD, Nat.testBit_zero])]
  split <;> omega

theorem flagByte_highBit_toNat (v : Byte) : (flagByte (highBit v)).toNat = v.toNat / 128 := by
  have hv : v.toNat < 256 := v.isLt
  rw [flagByte_toNat (p := v.toNat / 128 % 2 = 1) (by
    simp [highBit, BitVec.getLsbD, Nat.testBit_eq_decide_div_mod_eq])]
  split <;> omega

/-- Settles O42: low nibbles 6 and 0xE of group 8 are the shifts, whose flag is the bit they shift out. -/
theorem shiftsByOne : Obligations.ShiftsByOne := by
  unfold Obligations.ShiftsByOne
  refine ⟨decodesAs_group8 (mk := fun x _ => .shr x) rfl fun w (hn : Field.n w = 0x6#4) => ?_,
    decodesAs_group8 (mk := fun x _ => .shl x) rfl fun w (hn : Field.n w = 0xE#4) => ?_, fun x => ⟨?_, ?_⟩⟩
  · simp only [decodeGroup8, hn]
  · simp only [decodeGroup8, hn]
  · exact writesFlagAndResult_of_writeFlagV (exec_shr x) (fun s => flagByte_lowBit_toNat (getV s x))
      fun s => by rw [BitVec.toNat_ushiftRight, Nat.shiftRight_one]
  · exact writesFlagAndResult_of_writeFlagV (exec_shl x) (fun s => flagByte_highBit_toNat (getV s x))
      fun s => by rw [BitVec.toNat_shiftLeft, Nat.shiftLeft_eq, Nat.pow_one]

/-! ### Timers and keys (R190 to R197) -/

theorem exec_ldFromDT (x : Reg) (s : State) : exec (.ldFromDT x) s = writeV s x s.DT := rfl

theorem exec_ldDT (x : Reg) (s : State) : exec (.ldDT x) s = .next (advance { s with DT := getV s x } 2) := rfl

theorem exec_ldST (x : Reg) (s : State) : exec (.ldST x) s = .next (advance { s with ST := getV s x } 2) := rfl

/-- Settles O47: three rows of group F, one register write and two timer writes. -/
theorem timerMoves : Obligations.TimerMoves := by
  unfold Obligations.TimerMoves
  refine ⟨decodesAs_groupF rfl fun w (hn : Field.n w = 0x7#4) => ?_,
    decodesAs_groupF5 rfl rfl fun w (hy : Field.ysel w = 0x1#4) => ?_,
    decodesAs_groupF rfl fun w (hn : Field.n w = 0x8#4) => ?_, fun x => ⟨?_, fun s => ?_, fun s => ?_⟩⟩
  · simp only [decodeGroupF, hn]
  · simp only [decodeGroupF5, hy]
  · simp only [decodeGroupF, hn]
  · exact writesOnly_of_writeV (exec_ldFromDT x) fun _ => rfl
  · rw [exec_ldDT, advance_eq]
    rfl
  · rw [exec_ldST, advance_eq]
    rfl

theorem exec_ldKey (x : Reg) (s : State) :
    exec (.ldKey x) s = .next ((lowestKey s).elim s fun k => advance (setV s x (keyByte k)) 2) := execLdKey_eq x s

theorem keyByte_toNat (k : Key) : (keyByte k).toNat = k.val := by
  have hk : k.val < 16 := k.isLt
  rw [keyByte, BitVec.toNat_ofNat]
  omega

/-- The least pressed key is the one key that is down with none down below it (R194). -/
theorem lowestKey_eq_some {s : State} {k : Key} (hk : s.keys[k] = true) (hmin : ∀ j : Key, j < k → s.keys[j] = false) :
    lowestKey s = some k := by
  cases hl : lowestKey s with
  | none => exact absurd ((lowestKey_none s).mp hl k) (by simp [hk])
  | some l =>
    obtain ⟨hdown, hleast⟩ := lowestKey_some hl
    obtain hlt | rfl | hgt := lt_trichotomy l k
    · exact absurd (hmin l hlt) (by simp [hdown])
    · rfl
    · exact absurd (hleast k hgt) (by simp [hk])

/-- Settles O49: the wait goes by the least pressed key, which is none when no key is down. -/
theorem keyWaitStallsOrStoresLowest : Obligations.KeyWaitStallsOrStoresLowest := by
  unfold Obligations.KeyWaitStallsOrStoresLowest
  refine ⟨decodesAs_groupF rfl fun w (hn : Field.n w = 0xA#4) => ?_, fun x s hup => ?_, fun x s k hk hmin => ?_⟩
  · simp only [decodeGroupF, hn]
  · rw [exec_ldKey, (lowestKey_none s).mpr hup]
    rfl
  · refine ⟨advance (setV s x (keyByte k)) 2, by rw [exec_ldKey, lowestKey_eq_some hk hmin]; rfl, ?_, fun r hr => ?_,
      advance_setV_eq s x (keyByte k) 2⟩
    · rw [getV_advance, getV_setV_same, keyByte_toNat]
    · rw [getV_advance, getV_setV_other s x r (keyByte k) hr]

theorem exec_skp (x : Reg) (s : State) : exec (.skp x) s = checkKey s (getV s x) (fun k => skipIf s.keys[k] s) := rfl

theorem exec_sknp (x : Reg) (s : State) :
    exec (.sknp x) s = checkKey s (getV s x) (fun k => skipIf (!s.keys[k]) s) := rfl

/-- A row of group E decodes as the group's decoder treats its low byte (R96). -/
theorem decodesAs_groupE {bits : Word} {mk : Reg → Instr} (hop : Field.op bits = 0xE#4)
    (h : ∀ w, Field.nn w = Field.nn bits → decodeGroupE w = mk (Field.x w)) :
    decodesAs 0xF0FF bits (fun w => mk (xOf w)) := by
  refine decodesAs_F0FF fun w hw hnn => ?_
  have hgroup : decodeWord w = decodeGroupE w := by simp only [decodeWord, hw, hop]
  rw [hgroup, h w hnn, Field.x_eq_xOf]

/-- A key-index check of a register that holds a key's index gives that key. -/
theorem checkKey_of_toNat_eq {s : State} {v : Byte} {k : Key} (done : Key → State) (h : v.toNat = k.val) :
    checkKey s v done = .next (done k) := by
  have hkey : Fin.ofNat 16 v.toNat = k := Fin.ext (by rw [h]; exact Nat.mod_eq_of_lt k.isLt)
  rw [checkKey_ok (by omega), hkey]

/-- Settles O50: group E is the key skips, and both go through the key-index check. -/
theorem keySkips : Obligations.KeySkips := by
  unfold Obligations.KeySkips
  refine ⟨decodesAs_groupE rfl fun w (hnn : Field.nn w = 0x9E#8) => ?_,
    decodesAs_groupE rfl fun w (hnn : Field.nn w = 0xA1#8) => ?_, fun x s k h => ⟨?_, ?_⟩, fun x s h => ⟨?_, ?_⟩⟩
  · simp only [decodeGroupE, hnn]
  · simp only [decodeGroupE, hnn]
  · rw [exec_skp, checkKey_of_toNat_eq _ h, skipIf_eq Iff.rfl]
  · rw [exec_sknp, checkKey_of_toNat_eq _ h, skipIf_eq (p := s.keys[k] = false) (by rw [Bool.not_eq_true'])]
  · rw [exec_skp, checkKey_fault h, raise]
  · rw [exec_sknp, checkKey_fault h, raise]

/-! ### Clear, random, unknown -/

theorem exec_cls (s : State) :
    exec .cls s = .next (advance { s with screen := blankScreen, redrawRequested := true } 2) := rfl

theorem pixelAt_of_blankScreen {s : State} (h : s.screen = blankScreen) (xx : Fin 64) (yy : Fin 32) :
    pixelAt s xx yy = false := by
  simp [pixelAt, h, blankScreen]

/-- Settles O51: group 0 with low nibble 0 is the clear, which writes the screen and the redraw flag. -/
theorem clearScreen : Obligations.ClearScreen := by
  unfold Obligations.ClearScreen
  refine ⟨decodesAs_F00F fun w (hop : Field.op w = 0x0#4) (hn : Field.n w = 0x0#4) => ?_,
    fun s => ⟨_, exec_cls s, fun xx yy => pixelAt_of_blankScreen rfl xx yy, ?_⟩⟩
  · simp only [decodeWord, hop, decodeGroup0, hn]
  · rw [advance_eq]
    rfl

theorem exec_rnd (x : Reg) (nn : Byte) (s : State) :
    exec (.rnd x nn) s =
      .next (advance (setV { s with rndCount := s.rndCount + 1 } x (nextRandom s &&& nn)) 2) := rfl

/-- Settles O56: group C is the draw of one byte, and a masked byte has no bit outside its mask. -/
theorem randomUnderMask : Obligations.RandomUnderMask := by
  unfold Obligations.RandomUnderMask
  refine ⟨decodesAs_F000 fun w (hop : Field.op w = 0xC#4) => ?_, fun x nn s => ?_⟩
  · simp only [decodeWord, hop, Field.x_eq_xOf, Field.nn_eq_nnOf]
  · refine ⟨_, exec_rnd x nn s, ?_, ?_, fun r hr => ?_, advance_setV_eq _ x _ 2⟩
    · rw [getV_advance, getV_setV_same, nextRandom]
    · rw [getV_advance, getV_setV_same, BitVec.and_assoc, BitVec.and_not_self]
      exact BitVec.and_zero
    · exact getV_setV_other _ x r _ hr

theorem exec_unknown (w : Word) (s : State) :
    exec (.unknown w) s = .next (advance (emit s (.unknownOpcode w)) 2) := rfl

/-- Settles O57: a word that selects no row decodes to the unknown opcode, which emits its event and goes on. -/
theorem unknownOpcodeIsANoOp : Obligations.UnknownOpcodeIsANoOp := by
  unfold Obligations.UnknownOpcodeIsANoOp
  refine ⟨fun w h => (decoded_of_not_selects h).1, fun w s => ?_⟩
  rw [exec_unknown, advance_eq]
  rfl

end Sys2Proof.Proofs
end

section
/-! PROOFS. The draw statements (45_draw.md, R201 to R204): a draw inside memory flips the pixels at the sprite's
positions, so its screen, its flag and its records are those of `drawAt`. -/

namespace Sys2Proof.Proofs

open Sys2Proof.Machine Sys2Proof.Claims

/-! ### The sprite of the statements, as the list of positions -/

theorem spriteBit_eq_mem (s : State) (vx vy n : Nat) (xx : Fin 64) (yy : Fin 32) :
    spriteBit s vx vy n xx yy = decide ((xx.val, yy.val) ∈ spritePositions s vx vy n) := by
  simp only [spriteBit, mem_spritePositions, Bool.decide_and, Bool.decide_eq_true, Bool.and_assoc]

/-- The records of a sprite row are those of the flips at its positions, left to right. -/
theorem filterMap_flipAt (s : State) (vx vy r : Nat) (l : List Nat) :
    l.filterMap (fun c => flipAt s vx vy r c) =
      ((l.filter (fun c => (readByte s (s.I.toNat + r)).getLsbD (7 - c))).map (fun c => (vx + c, vy + r))).filterMap
        (flipRecord s) := by
  rw [List.filterMap_map, List.filterMap_filter]
  refine List.filterMap_congr fun c _ => ?_
  simp only [flipAt, flipRecord, Function.comp_apply]
  split <;> split <;> rfl

/-- The records of the statements are those of the flips at the sprite's positions, row by row (R202). -/
theorem flips_eq_filterMap (s : State) (vx vy n : Nat) :
    flips s vx vy n = (spritePositions s vx vy n).filterMap (flipRecord s) := by
  simp only [flips, spritePositions, List.filterMap_flatMap, filterMap_flipAt, rowPositions]

/-! ### A draw inside memory -/

theorem execFault_drw_of_spriteInMemory (x y : Reg) {n : BitVec 4} {s : State} (h : spriteInMemory s n) :
    execFault (.drw x y n) s = none := by
  rw [execFault]
  obtain h0 | hle := h
  · rw [if_pos h0]
  · rw [memFault, if_neg (Nat.not_lt.mpr hle), ite_self]

/-- A draw inside memory clears `VF`, flips the pixels at the sprite's positions and goes on (R201). -/
theorem exec_drw_of_spriteInMemory (x y : Reg) {n : BitVec 4} {s : State} (h : spriteInMemory s n) :
    exec (.drw x y n) s = .next (advance
      (drawAt (setV s VF 0) (spritePositions s (getV s x).toNat (getV s y).toNat n.toNat)) 2) := by
  rw [exec_of_execFault_none (execFault_drw_of_spriteInMemory x y h), completed, drawRows_eq]
  rfl

/-- The frame of a draw: it goes on, and besides changes only what drawing may. -/
theorem advance_drawAt_eq (s : State) (v : Byte) (l : List (Nat × Nat)) (k : Nat) :
    advance (drawAt (setV s VF v) l) k =
      { s with V := (drawAt (setV s VF v) l).V, screen := (drawAt (setV s VF v) l).screen,
               pixelChangeQueue := (drawAt (setV s VF v) l).pixelChangeQueue,
               events := (drawAt (setV s VF v) l).events, pc := pcPlus s k } := by
  rw [advance_eq, drawAt_frame l (setV s VF v)]
  rfl

@[simp] theorem pixelAt_advance (s : State) (k : Nat) (xx : Fin 64) (yy : Fin 32) :
    pixelAt (advance s k) xx yy = pixelAt s xx yy := rfl

@[simp] theorem pixelAt_setV (s : State) (r : Reg) (v : Byte) (xx : Fin 64) (yy : Fin 32) :
    pixelAt (setV s r v) xx yy = pixelAt s xx yy := rfl

/-- Settles O52: each pixel is flipped exactly when its position is one of the sprite's, and `VF`, cleared first, is set
by the flips of pixels that were on. -/
theorem drawFlipsTheSpritesPixels : Obligations.DrawFlipsTheSpritesPixels := by
  unfold Obligations.DrawFlipsTheSpritesPixels
  intro x y n s h
  have hnodup := nodup_spritePositions s (getV s x).toNat (getV s y).toNat n.toNat
  obtain ⟨hset, hclear⟩ := getV_drawAt_VF _ (setV s VF 0) hnodup
  refine ⟨_, exec_drw_of_spriteInMemory x y h, fun xx yy => ?_, fun ⟨xx, yy, hbit, hon⟩ => ?_, fun hoff => ?_,
    fun r hr => ?_, advance_drawAt_eq s 0 _ 2⟩
  · rw [pixelAt_advance, pixelAt_drawAt _ _ hnodup, pixelAt_setV, spriteBit_eq_mem]
  · rw [spriteBit_eq_mem, decide_eq_true_iff] at hbit
    exact hset ⟨xx, yy, hbit, hon⟩
  · rw [getV_advance, hclear fun xx yy hmem => hoff xx yy (by rw [spriteBit_eq_mem, decide_eq_true hmem]),
      getV_setV_same]
  · rw [getV_advance, getV_drawAt_other _ _ r hr, getV_setV_other s VF r 0 hr]

/-- Settles O53: the flips at distinct positions leave their records in order. -/
theorem drawRecordsFlipsRowByRow : Obligations.DrawRecordsFlipsRowByRow := by
  unfold Obligations.DrawRecordsFlipsRowByRow
  intro x y n s h
  obtain ⟨hqueue, hevents⟩ := drawAt_queue _ (setV s VF 0) (nodup_spritePositions s (getV s x).toNat (getV s y).toNat n.toNat)
  rw [flips_eq_filterMap]
  exact ⟨_, exec_drw_of_spriteInMemory x y h, hqueue, hevents⟩

/-- Settles O54: group D is the draw, and the bounds check of its last row comes before every effect. -/
theorem drawOutsideMemoryFaults : Obligations.DrawOutsideMemoryFaults := by
  unfold Obligations.DrawOutsideMemoryFaults
  refine ⟨decodesAs_F000 fun w (hop : Field.op w = 0xD#4) => ?_, fun x y n s hrow hpast => ?_⟩
  · simp only [decodeWord, hop, Field.x_eq_xOf, Field.y_eq_yOf, Field.n_eq_nOf]
  · have hfault : execFault (.drw x y n) s = some (.memOutOfBounds (s.I.toNat + n.toNat - 1)) := by
      rw [execFault, if_neg (by omega), memFault, if_pos hpast]
    rw [exec_eq, hfault]
    rfl

/-! ### Drawing twice (R204) -/

/-- The sprite's positions are read from the memory and `I` alone. -/
theorem spritePositions_congr {s t : State} (hmem : t.memory = s.memory) (hI : t.I = s.I) (vx vy n : Nat) :
    spritePositions t vx vy n = spritePositions s vx vy n := by
  simp only [spritePositions, readByte, hmem, hI]

theorem screen_ext {s t : State} (h : ∀ xx yy, pixelAt t xx yy = pixelAt s xx yy) : t.screen = s.screen := by
  ext yy hyy xx hxx
  exact h ⟨xx, hxx⟩ ⟨yy, hyy⟩

/-- A record with the opposite value. -/
def oppositeRecord (r : PixelRecord) : PixelRecord := { r with v := !r.v }

/-- After flips at distinct positions, the flip at one of them records the opposite value. -/
theorem flipRecord_drawAt {l : List (Nat × Nat)} (hl : l.Nodup) (s : State) {p : Nat × Nat} (hp : p ∈ l) :
    flipRecord (drawAt s l) p = (flipRecord s p).map oppositeRecord := by
  unfold flipRecord
  split
  · rw [pixelAt_drawAt l s hl, decide_eq_true hp]
    simp [oppositeRecord]
  · rfl

/-- A draw of the same rows from registers that hold the same coordinates has the same positions. -/
theorem exec_drw_again {x y x' y' : Reg} {n : BitVec 4} {s t : State} (h : spriteInMemory s n)
    (hmem : t.memory = s.memory) (hI : t.I = s.I) (hx : getV t x' = getV s x) (hy : getV t y' = getV s y) :
    exec (.drw x' y' n) t = .next (advance
      (drawAt (setV t VF 0) (spritePositions s (getV s x).toNat (getV s y).toNat n.toNat)) 2) := by
  have hin : spriteInMemory t n := by
    rw [spriteInMemory, hI]
    exact h
  rw [exec_drw_of_spriteInMemory x' y' hin, hx, hy, spritePositions_congr hmem hI]

/-- Settles O55: the second draw has the first's positions, so it flips every pixel back and records the opposite. -/
theorem drawingTwiceRestoresTheScreen : Obligations.DrawingTwiceRestoresTheScreen := by
  unfold Obligations.DrawingTwiceRestoresTheScreen
  intro x y x' y' n s t h hexec hx hy
  have ht := Host.Outcome.next.inj (hexec.symm.trans (exec_drw_of_spriteInMemory x y h))
  have hframe := ht.trans (advance_drawAt_eq s 0 _ 2)
  have hmem : t.memory = s.memory := by rw [hframe]
  have hI : t.I = s.I := by rw [hframe]
  have hagain := exec_drw_again h hmem hI hx hy
  have hnodup := nodup_spritePositions s (getV s x).toNat (getV s y).toNat n.toNat
  generalize spritePositions s (getV s x).toNat (getV s y).toNat n.toNat = l at ht hagain hnodup
  refine ⟨_, hagain, screen_ext fun xx yy => ?_, l.filterMap (flipRecord s), ?_, ?_⟩
  · rw [pixelAt_advance, pixelAt_drawAt l _ hnodup, pixelAt_setV, ht, pixelAt_advance, pixelAt_drawAt l _ hnodup,
      pixelAt_setV, Bool.xor_assoc, Bool.xor_self, Bool.xor_false]
  · rw [ht]
    exact (drawAt_queue l (setV s VF 0) hnodup).1
  · have hrecords : l.filterMap (flipRecord t) = (l.filterMap (flipRecord s)).map oppositeRecord := by
      rw [List.map_filterMap, ht]
      exact List.filterMap_congr fun p hp => flipRecord_drawAt hnodup (setV s VF 0) hp
    exact (drawAt_queue l (setV t VF 0) hnodup).1.trans (congrArg (t.pixelChangeQueue ++ ·) hrecords)

end Sys2Proof.Proofs
end

section
/-! PROOFS. What a step does, said once (40_step_cycle.md): halted, the fetch fault, an execute fault, or the completed
instruction and the tick. The statements about the fault register, the timers and the opcode are read off these four. -/

namespace Sys2Proof.Proofs

open Sys2Proof.Machine Sys2Proof.Claims

/-! ### The four forms of a step -/

/-- The state the execute phase starts from: no event yet, the fetched word latched (R121). -/
def latched (s : State) : State := latchOpcode (beginStep s) (fetchWord s s.pc.toNat)

@[simp] theorem completed_fault (i : Instr) (s : State) : (completed i s).fault = s.fault := by
  cases i
  case storeRegs x => exact storeRegList_fault s (regsUpTo x)
  case loadRegs x => exact loadRegList_fault s (regsUpTo x)
  case drw x y n => exact drawRows_fault (setV s VF 0) _ _ _
  case ldKey x =>
    obtain h | ⟨k, h⟩ := completed_ldKey_cases x s
    · rw [h]
    · rw [h, advance_fault, setV_fault]
  all_goals rfl

/-- The causes of the execute faults do not lie in what the fetch writes. -/
theorem execFault_latched (i : Instr) (s : State) : execFault i (latched s) = execFault i s := by
  cases i <;> rfl

theorem exec_latched_of_execFault_none {i : Instr} {s : State} (h : execFault i s = none) :
    exec i (latched s) = .next (completed i (latched s)) :=
  exec_of_execFault_none ((execFault_latched i s).trans h)

/-- Everything a step can do (R120, R126, R127, R128). -/
theorem step_forms {s u : State} (h : step s = .next u) :
    (s.fault ≠ none ∧ u = beginStep s) ∨
    (s.fault = none ∧ 4094 < s.pc.toNat ∧ u = raise (beginStep s) (.fetchOutOfBounds s.pc)) ∨
    (s.fault = none ∧ s.pc.toNat ≤ 4094 ∧ ∃ f, execFault (fetched s) s = some f ∧ u = raise (latched s) f) ∨
    (s.fault = none ∧ s.pc.toNat ≤ 4094 ∧ execFault (fetched s) s = none ∧
      u = tick (completed (fetched s) (latched s))) := by
  obtain hhalted | hfetch | ⟨hf, hp, t, hexec, hend⟩ := step_cases h
  · exact .inl hhalted
  · exact .inr (.inl hfetch)
  · obtain ⟨f, hfault, rfl⟩ | ⟨hfault, rfl⟩ := exec_cases hexec
    · obtain ⟨-, rfl⟩ | ⟨hnone, -⟩ := hend
      · exact .inr (.inr (.inl ⟨hf, hp, f, (execFault_latched _ s).symm.trans hfault, rfl⟩))
      · exact absurd hnone (Option.some_ne_none f)
    · obtain ⟨hsome, -⟩ | ⟨-, rfl⟩ := hend
      · exact absurd ((completed_fault _ (latched s)).trans hf) hsome
      · exact .inr (.inr (.inr ⟨hf, hp, (execFault_latched _ s).symm.trans hfault, rfl⟩))

/-- A step that ends without a fault completed its instruction and ticked. -/
theorem step_of_no_fault {s u : State} (h : step s = .next u) (hu : u.fault = none) :
    s.fault = none ∧ s.pc.toNat ≤ 4094 ∧ execFault (fetched s) s = none ∧
      u = tick (completed (fetched s) (latched s)) := by
  obtain ⟨hf, rfl⟩ | ⟨-, -, rfl⟩ | ⟨-, -, f, -, rfl⟩ | hdone := step_forms h
  · exact absurd hu hf
  · exact absurd hu (Option.some_ne_none _)
  · exact absurd hu (Option.some_ne_none _)
  · exact hdone

/-! ### The step as a function -/

theorem finish_next_eq (t : State) : finish (.next t) = if t.fault.isNone then .next (tick t) else .next t := by
  rw [finish, halted]
  cases ht : t.fault <;> rfl

/-- Settles O1: the two bytes at `pc`, decoded, are the fetched word, decoded. -/
theorem stepRunsDecodedInstruction : Obligations.StepRunsDecodedInstruction := by
  unfold Obligations.StepRunsDecodedInstruction
  intro s i rest hf hp hdec
  have hi : decodeWord (fetchWord s s.pc.toNat) = i := congrArg Prod.fst (Except.ok.inj hdec)
  have hword : BitVec.ofNat 16 ((readByte s s.pc.toNat).toNat * 256 + (readByte s (s.pc.toNat + 1)).toNat) =
      fetchWord s s.pc.toNat := by
    rw [fetchWord, ← wordOfBytes_toNat, BitVec.ofNat_toNat, BitVec.setWidth_eq]
  rw [step_exec s hf hp, hi, hword]
  change finish (exec i (latched s)) = match exec i (latched s) with
    | .next t => if t.fault.isNone then .next (tick t) else .next t
    | .fault r => .fault r
    | .refused r => .refused r
  rw [exec_eq]
  exact finish_next_eq _

/-- Settles O3: the halt check comes first. -/
theorem haltedStepDoesNothing : Obligations.HaltedStepDoesNothing := by
  unfold Obligations.HaltedStepDoesNothing
  exact step_halted

theorem decTimer_eq_ofNat (t : Byte) : decTimer t = BitVec.ofNat 8 (t.toNat - 1) := by
  rw [← decTimer_toNat, BitVec.ofNat_toNat, BitVec.setWidth_eq]

/-- Settles O4: both timers go down by one, and the beep is due at 1. -/
theorem tickCountsDownAndBeeps : Obligations.TickCountsDownAndBeeps := by
  unfold Obligations.TickCountsDownAndBeeps
  intro s
  have hdue : s.ST = 1 ↔ s.ST.toNat = 1 := BitVec.toNat_inj.symm
  rw [tick_eq, decTimer_eq_ofNat, decTimer_eq_ofNat, if_congr hdue rfl rfl]

theorem step_next (s : State) : ∃ u, step s = .next u := by
  by_cases hf : s.fault = none
  · by_cases hp : 4094 < s.pc.toNat
    · exact ⟨_, step_fetch_fault s hf hp⟩
    · rw [step_exec s hf (by omega), exec_eq, finish]
      split
      · exact ⟨_, rfl⟩
      · exact ⟨_, rfl⟩
  · exact ⟨_, step_halted s hf⟩

/-- Settles O6: every instruction has one of the two forms, both a next state, and so has every step. -/
theorem everyStepAnswersNext : Obligations.EveryStepAnswersNext := by
  unfold Obligations.EveryStepAnswersNext
  exact ⟨fun i s => ⟨_, exec_eq i s⟩, step_next⟩

/-! ### The fault register (R220 to R229) -/

theorem faultOf_halted {s : State} (h : s.fault ≠ none) : faultOf s = s.fault :=
  if_pos (Option.isSome_iff_ne_none.mpr h)

theorem faultOf_past_end {s : State} (h : s.fault = none) (hp : 4094 < s.pc.toNat) :
    faultOf s = some (.fetchOutOfBounds s.pc) := by
  rw [faultOf, if_neg (by simp [h]), if_pos hp]

/-- Once the word is fetched, the causes of the table are those of the execute phase. -/
theorem faultOf_fetched {s : State} (h : s.fault = none) (hp : s.pc.toNat ≤ 4094) :
    faultOf s = execFault (fetched s) s := by
  rw [faultOf, if_neg (by simp [h]), if_neg (by omega)]
  cases fetched s <;> rfl

/-- Settles O7: each of the four forms of a step leaves the fault the table gives. -/
theorem faultsHaveExactlyTheirCauses : Obligations.FaultsHaveExactlyTheirCauses := by
  unfold Obligations.FaultsHaveExactlyTheirCauses
  intro s u h
  obtain ⟨hf, rfl⟩ | ⟨hf, hp, rfl⟩ | ⟨hf, hp, f, hfault, rfl⟩ | ⟨hf, hp, hfault, rfl⟩ := step_forms h
  · exact (faultOf_halted hf).symm
  · exact (faultOf_past_end hf hp).symm
  · rw [faultOf_fetched hf hp, hfault, raise_fault]
  · rw [faultOf_fetched hf hp, hfault, tick_fault, completed_fault]
    exact hf

/-- Settles O8: a fault is raised on the state before, at the fetch, or on the latched state, after it. -/
theorem faultsArePrecise : Obligations.FaultsArePrecise := by
  unfold Obligations.FaultsArePrecise
  intro s u hf h hu
  obtain ⟨hhalted, -⟩ | ⟨-, hp, rfl⟩ | ⟨-, hp, f, -, rfl⟩ | ⟨-, -, -, rfl⟩ := step_forms h
  · exact absurd hf hhalted
  · rw [if_pos hp]
    rfl
  · rw [if_neg (by omega)]
    rfl
  · rw [tick_fault, completed_fault] at hu
    exact absurd hf hu

/-! ### The fetched word (R74, R121) -/

/-- A step that fetches holds the fetched word, whether it faults or not. -/
theorem step_currentOpcode {s u : State} (hf : s.fault = none) (hp : s.pc.toNat ≤ 4094) (h : step s = .next u) :
    u.currentOpcode = fetchWord s s.pc.toNat := by
  obtain ⟨hhalted, -⟩ | ⟨-, hpast, -⟩ | ⟨-, -, f, -, rfl⟩ | ⟨-, -, hnone, rfl⟩ := step_forms h
  · exact absurd hf hhalted
  · exact absurd hpast (by omega)
  · rfl
  · obtain ⟨-, hlatch, -⟩ := specialRegisterFrame _ _ _ (exec_latched_of_execFault_none hnone)
    rw [tick_eq]
    exact hlatch

/-- Settles O11: the fetch reads the two bytes at `pc` after the store. -/
theorem fetchSeesEveryStore : Obligations.FetchSeesEveryStore := by
  unfold Obligations.FetchSeesEveryStore
  intro s u a v hf hp h
  rw [step_currentOpcode (s := writeByte s a v) hf hp h, fetchWord, wordOfBytes_toNat, readByte_writeByte, readByte_writeByte]
  simp only [writeByte_pc, eq_comm]

end Sys2Proof.Proofs
end

section
/-! PROOFS. The timers and the events over a step (R34, R128 to R131). -/

namespace Sys2Proof.Proofs

open Sys2Proof.Machine Sys2Proof.Claims

/-! ### The timers of a completed instruction (R29, R30) -/

/-- `DT` after the execute phase: the register LD DT loads, else what it held (R191). -/
def loadedDT : Instr → State → Byte
  | .ldDT x, s => getV s x
  | _, s => s.DT

/-- `ST` after the execute phase: the register LD ST loads, else what it held (R192). -/
def loadedST : Instr → State → Byte
  | .ldST x, s => getV s x
  | _, s => s.ST

theorem completed_timers {i : Instr} {s : State} (h : execFault i s = none) :
    (completed i s).DT = loadedDT i s ∧ (completed i s).ST = loadedST i s := by
  obtain ⟨-, -, -, -, -, hDT, hST, -⟩ := specialRegisterFrame i s _ (exec_of_execFault_none h)
  cases i
  case ldDT x => exact ⟨rfl, hST⟩
  case ldST x => exact ⟨hDT, rfl⟩
  all_goals exact ⟨hDT, hST⟩

/-! ### The events of a completed instruction (R34, R131) -/

/-- The records an instruction appends to the queue: the flips of a draw (R202). -/
def drawnRecords : Instr → State → List PixelRecord
  | .drw x y n, s => flips s (getV s x).toNat (getV s y).toNat n.toNat
  | _, _ => []

/-- The diagnostic of an unknown opcode (R125). -/
def diagnostics : Instr → List Event
  | .unknown w => [.unknownOpcode w]
  | _ => []

theorem records_of_unchanged {s t : State} {recs : List PixelRecord} {diag : List Event} (hr : recs = [])
    (hd : diag = []) (hq : t.pixelChangeQueue = s.pixelChangeQueue) (he : t.events = s.events) :
    t.pixelChangeQueue = s.pixelChangeQueue ++ recs ∧ t.events = s.events ++ (recs.map Event.pixel ++ diag) := by
  rw [hq, he, hr, hd, List.map_nil, List.append_nil, List.append_nil, List.append_nil]
  exact ⟨rfl, rfl⟩

/-- A completed instruction appends its records to the queue, and emits them and its diagnostic. -/
theorem completed_records (i : Instr) (s : State) :
    (completed i s).pixelChangeQueue = s.pixelChangeQueue ++ drawnRecords i s ∧
    (completed i s).events = s.events ++ ((drawnRecords i s).map Event.pixel ++ diagnostics i) := by
  cases i
  case drw x y n =>
    have hd : diagnostics (.drw x y n) = [] := rfl
    have hr : drawnRecords (.drw x y n) s = flips s (getV s x).toNat (getV s y).toNat n.toNat := rfl
    rw [hr, hd, List.append_nil, flips_eq_filterMap, completed, drawRows_eq]
    exact drawAt_queue _ (setV s VF 0) (nodup_spritePositions s (getV s x).toNat (getV s y).toNat n.toNat)
  case unknown w => exact ⟨(List.append_nil _).symm, rfl⟩
  case storeRegs x => exact records_of_unchanged rfl rfl (by rw [completed_storeRegs_eq]) (by rw [completed_storeRegs_eq])
  case loadRegs x => exact records_of_unchanged rfl rfl (by rw [completed_loadRegs_eq]) (by rw [completed_loadRegs_eq])
  case ldKey x =>
    obtain h | ⟨k, h⟩ := completed_ldKey_cases x s
    · exact records_of_unchanged rfl rfl (by rw [h]) (by rw [h])
    · exact records_of_unchanged rfl rfl (by rw [h]; rfl) (by rw [h]; rfl)
  all_goals exact records_of_unchanged rfl rfl rfl rfl

theorem beep_not_mem_records (i : Instr) (s : State) :
    Event.beep ∉ (drawnRecords i s).map Event.pixel ++ diagnostics i := by
  have hpixel : Event.beep ∉ (drawnRecords i s).map Event.pixel := by simp
  have hdiagnostic : Event.beep ∉ diagnostics i := by cases i <;> simp [diagnostics]
  exact fun h => (List.mem_append.mp h).elim hpixel hdiagnostic

/-- An instruction that draws has no diagnostic, and the one with a diagnostic draws nothing. -/
theorem diagnostics_cases (i : Instr) (s : State) :
    diagnostics i = [] ∨ (drawnRecords i s = [] ∧ ∃ w, diagnostics i = [.unknownOpcode w]) := by
  cases i
  case unknown w => exact .inr ⟨rfl, w, rfl⟩
  all_goals exact .inl rfl

theorem length_rowPositions_le (b : Byte) (vx yy : Nat) : (rowPositions b vx yy).length ≤ 8 := by
  rw [rowPositions, List.length_map]
  exact (List.length_filter_le _ _).trans_eq List.length_range

theorem length_spritePositions_le (s : State) (vx vy n : Nat) : (spritePositions s vx vy n).length ≤ n * 8 := by
  rw [spritePositions, List.length_flatMap]
  refine (List.sum_le_card_nsmul _ 8 fun k hk => ?_).trans_eq ?_
  · obtain ⟨r, -, rfl⟩ := List.mem_map.mp hk
    exact length_rowPositions_le _ _ _
  · rw [List.length_map, List.length_range, smul_eq_mul]

/-- A draw of at most 15 rows of 8 bits flips at most 120 pixels (R131). -/
theorem length_drawnRecords_le (i : Instr) (s : State) : (drawnRecords i s).length ≤ 120 := by
  cases i
  case drw x y n =>
    have hrows : n.toNat < 16 := n.isLt
    have hpositions := length_spritePositions_le s (getV s x).toNat (getV s y).toNat n.toNat
    calc (flips s (getV s x).toNat (getV s y).toNat n.toNat).length
        ≤ (spritePositions s (getV s x).toNat (getV s y).toNat n.toNat).length := by
          rw [flips_eq_filterMap]
          exact List.length_filterMap_le _ _
      _ ≤ 120 := by omega
  all_goals exact Nat.zero_le 120

/-! ### The statements about timers and events -/

/-- The beep of a completed step: due when `ST` after the load was 1 (R129). -/
def beepDue (i : Instr) (s : State) : List Event := if (loadedST i s).toNat = 1 then [.beep] else []

/-- The events of a completed step: what the instruction emits, then the tick's beep (R131). -/
theorem events_tick_completed {i : Instr} {s : State} (h : execFault i (latched s) = none) :
    (tick (completed i (latched s))).events =
      ((drawnRecords i (latched s)).map Event.pixel ++ diagnostics i) ++ beepDue i (latched s) := by
  obtain ⟨-, hevents⟩ := completed_records i (latched s)
  obtain ⟨-, hST⟩ := completed_timers h
  have hone : loadedST i (latched s) = 1 ↔ (loadedST i (latched s)).toNat = 1 := BitVec.toNat_inj.symm
  have hnone : (latched s).events = [] := rfl
  simp only [tick_eq, hevents, hST, hnone, List.nil_append, beepDue, hone]
  split
  · rfl
  · rw [List.append_nil]

theorem beep_mem_events_iff {i : Instr} {s : State} (h : execFault i (latched s) = none) :
    Event.beep ∈ (tick (completed i (latched s))).events ↔ (loadedST i (latched s)).toNat = 1 := by
  rw [events_tick_completed h, List.mem_append, or_iff_right (beep_not_mem_records i (latched s)), beepDue]
  split <;> simp [*]

/-- Settles O5: the tick takes one from each timer as the instruction left it, and the instruction emits no beep. -/
theorem stepTicksBothTimers : Obligations.StepTicksBothTimers := by
  unfold Obligations.StepTicksBothTimers
  intro s u _ h hu
  obtain ⟨-, -, hnone, rfl⟩ := step_of_no_fault h hu
  have hnone' := (execFault_latched _ s).trans hnone
  obtain ⟨hDT, hST⟩ := completed_timers hnone'
  have hticked : (tick (completed (fetched s) (latched s))).DT.toNat = (loadedDT (fetched s) (latched s)).toNat - 1 ∧
      (tick (completed (fetched s) (latched s))).ST.toNat = (loadedST (fetched s) (latched s)).toNat - 1 := by
    rw [tick_eq, ← hDT, ← hST]
    exact ⟨decTimer_toNat _, decTimer_toNat _⟩
  have hbeep := beep_mem_events_iff hnone'
  generalize tick (completed (fetched s) (latched s)) = u at hticked hbeep ⊢
  generalize fetched s = i at hticked hbeep ⊢
  cases i <;> exact ⟨hticked.1, hticked.2, hbeep⟩

/-- A step that does not complete an instruction emits nothing and leaves the queue. -/
theorem step_silent_or_completed {s u : State} (h : step s = .next u) :
    (u.events = [] ∧ u.pixelChangeQueue = s.pixelChangeQueue) ∨
    (execFault (fetched s) (latched s) = none ∧ u = tick (completed (fetched s) (latched s))) := by
  obtain ⟨-, rfl⟩ | ⟨-, -, rfl⟩ | ⟨-, -, f, -, rfl⟩ | ⟨-, -, hnone, rfl⟩ := step_forms h
  · exact .inl ⟨rfl, rfl⟩
  · exact .inl ⟨rfl, rfl⟩
  · exact .inl ⟨rfl, rfl⟩
  · exact .inr ⟨(execFault_latched _ s).trans hnone, rfl⟩

/-- Settles O9: a completed step has the instruction's records or its diagnostic and then the tick's beep; every other step
emits nothing. -/
theorem eventsOfAStepAreOrdered : Obligations.EventsOfAStepAreOrdered := by
  unfold Obligations.EventsOfAStepAreOrdered
  intro s u h
  obtain ⟨hevents, hqueue⟩ | ⟨hnone, rfl⟩ := step_silent_or_completed h
  · exact ⟨[], [], [], hevents, hqueue.trans (List.append_nil _).symm, Nat.zero_le 120, .inl rfl, .inl rfl⟩
  · obtain ⟨hqueue, -⟩ := completed_records (fetched s) (latched s)
    refine ⟨drawnRecords (fetched s) (latched s), diagnostics (fetched s), beepDue (fetched s) (latched s),
      events_tick_completed hnone, ?_, length_drawnRecords_le _ _, diagnostics_cases _ _, ?_⟩
    · rw [tick_eq]
      exact hqueue
    · rw [beepDue]
      split
      · exact .inr rfl
      · exact .inl rfl

end Sys2Proof.Proofs
end

section
/-! PROOFS. The program counter's bound (R24), the end of a run (R133), and what a step does not read (R35, R36). -/

namespace Sys2Proof.Proofs

open Sys2Proof.Machine Sys2Proof.Claims

/-! ### The program counter (R24) -/

theorem zext12_toNat (nnn : BitVec 12) : (zext12 nnn).toNat = nnn.toNat := by
  have hnnn : nnn.toNat < 4096 := nnn.isLt
  rw [zext12_eq_ofNat, BitVec.toNat_ofNat]
  omega

theorem pcPlus_toNat_le {s : State} (hp : s.pc.toNat ≤ 4094) {k : Nat} (hk : k ≤ 4) : (pcPlus s k).toNat ≤ 4350 := by
  rw [pcPlus, BitVec.toNat_ofNat]
  omega

/-- The one popped address is a live entry, so two past it is no address past 4096 (R143). -/
theorem popped_toNat_le {s : State} (hlive : s.liveStackOk) (hsp : 0 < s.sp.val) :
    (s.stack[s.sp.val - 1]'(by omega) + 2).toNat ≤ 4350 := by
  have hentry : (s.stack[s.sp.val - 1]'(by omega)).toNat ≤ 4094 :=
    hlive ⟨s.sp.val - 1, by omega⟩ (Nat.sub_lt hsp Nat.one_pos)
  rw [add_two_eq_ofNat, BitVec.toNat_ofNat]
  omega

/-- A completed instruction leaves `pc` at most 4350: it goes on, jumps, or pops a live entry. -/
theorem completed_pc_le {i : Instr} {s : State} (hp : s.pc.toNat ≤ 4094) (hlive : s.liveStackOk)
    (hf : execFault i s = none) : (completed i s).pc.toNat ≤ 4350 := by
  have hnext (t : State) (k : Nat) (hk : k ≤ 4) (ht : t.pc = s.pc) : (advance t k).pc.toNat ≤ 4350 := by
    rw [advance_pc, ht, pc_add_ofNat]
    exact pcPlus_toNat_le hp hk
  have hjump (nnn : BitVec 12) : (zext12 nnn).toNat ≤ 4350 := by
    have hnnn : nnn.toNat < 4096 := nnn.isLt
    rw [zext12_toNat]
    omega
  have hskip (c : Bool) : (skipIf c s).pc.toNat ≤ 4350 := hnext s _ (by split <;> decide) rfl
  cases i
  case jp nnn | call nnn => exact hjump nnn
  case jpV0 nnn =>
    have hnnn : nnn.toNat < 4096 := nnn.isLt
    have hV0 : (getV s 0).toNat < 256 := (getV s 0).isLt
    exact (zext12_add_zext8_toNat nnn (getV s 0)).trans_le (by omega)
  case ret =>
    have hsp : s.sp.val ≠ 0 := fun h0 => absurd hf (by simp [execFault, h0])
    exact popped_toNat_le hlive (Nat.pos_of_ne_zero hsp)
  case seImm | sneImm | seReg | sneReg | skp | sknp => exact hskip _
  case storeRegs x => exact hnext _ 2 (by decide) (by rw [storeRegList_eq])
  case loadRegs x => exact hnext _ 2 (by decide) (by rw [loadRegList_eq])
  case drw x y n => exact hnext _ 2 (by decide) (by rw [drawRows_frame]; rfl)
  case ldKey x =>
    obtain h | ⟨k, h⟩ := completed_ldKey_cases x s
    · rw [h]; omega
    · rw [h]; exact hnext _ 2 (by decide) rfl
  all_goals exact hnext _ 2 (by decide) rfl

/-- Settles O10: a step that does not fault completed its instruction, and the tick leaves `pc`. -/
theorem pcStaysBelow4351 : Obligations.PcStaysBelow4351 := by
  unfold Obligations.PcStaysBelow4351
  intro s u _ hlive h hu
  obtain ⟨-, hp, hf, rfl⟩ := step_of_no_fault h hu
  rw [tick_eq]
  exact completed_pc_le (s := latched s) hp hlive ((execFault_latched _ s).trans hf)

/-! ### A step, from its form -/

theorem step_of_execFault {s : State} {f : CoreFault} (hf : s.fault = none) (hp : s.pc.toNat ≤ 4094)
    (h : execFault (fetched s) s = some f) : step s = .next (raise (latched s) f) := by
  have hexec : exec (fetched s) (latched s) = .next (raise (latched s) f) := by
    rw [exec_eq, execFault_latched, h, Option.elim_some]
  exact (step_exec s hf hp).trans (congrArg finish hexec)

theorem step_of_completed {s : State} (hf : s.fault = none) (hp : s.pc.toNat ≤ 4094)
    (h : execFault (fetched s) s = none) : step s = .next (tick (completed (fetched s) (latched s))) := by
  have hexec : exec (fetched s) (latched s) = .next (completed (fetched s) (latched s)) :=
    exec_latched_of_execFault_none h
  have hfault : (completed (fetched s) (latched s)).fault = none := (completed_fault _ _).trans hf
  refine ((step_exec s hf hp).trans (congrArg finish hexec)).trans ?_
  rw [finish_next_eq, hfault]
  rfl

/-! ### The end of a run (R133) -/

theorem endOfRun_iff (s : State) :
    s.endOfRun = true ↔ s.fault = none ∧ s.pc.toNat ≤ 4094 ∧ s.DT = 0 ∧ s.ST = 0 ∧
      fetched s = .jp (s.pc.truncate 12) := by
  simp only [State.endOfRun, Bool.and_eq_true, Bool.not_eq_true', not_halted_iff, decide_eq_true_iff, beq_iff_eq,
    and_assoc, fetched]

/-- With both timers at 0 a tick changes nothing. -/
theorem tick_of_timers_zero {s : State} (hDT : s.DT = 0) (hST : s.ST = 0) : tick s = s := by
  rw [tick_eq, hDT, hST]
  cases s
  cases hDT
  cases hST
  rfl

theorem zext12_truncate {p : Word} (hp : p.toNat ≤ 4094) : zext12 (p.truncate 12) = p := by
  apply BitVec.eq_of_toNat_eq
  rw [zext12_toNat, BitVec.truncate, BitVec.toNat_setWidth]
  omega

/-- Settles O13: the jump goes to its own address, and the tick finds both timers at 0. -/
theorem endOfRunIsAFixedPoint : Obligations.EndOfRunIsAFixedPoint := by
  unfold Obligations.EndOfRunIsAFixedPoint
  intro s h
  obtain ⟨hf, hp, hDT, hST, hjp⟩ := (endOfRun_iff s).mp h
  refine ⟨{ s with currentOpcode := fetchWord s s.pc.toNat, events := [] }, ?_, rfl, h⟩
  have hjump : completed (.jp (s.pc.truncate 12)) (latched s) = latched s := by
    change setPc (latched s) (zext12 (s.pc.truncate 12)) = latched s
    rw [zext12_truncate hp]
    rfl
  rw [step_of_completed hf hp (by rw [hjp]; rfl), hjp, hjump, tick_of_timers_zero (s := latched s) hDT hST]
  rfl

/-! ### The queue and the redraw flag are not read (R35, R36) -/

/-- The state with other contents in the queue and the redraw flag. -/
def withDisplay (q : List PixelRecord) (b : Bool) (s : State) : State :=
  { s with pixelChangeQueue := q, redrawRequested := b }

/-- The two states differ in the queue and the redraw flag at most. -/
def SameButDisplay (s u : State) : Prop := ∃ q b, u = withDisplay q b s

theorem SameButDisplay.eq {s u : State} (h : SameButDisplay s u) :
    s = { u with pixelChangeQueue := s.pixelChangeQueue, redrawRequested := s.redrawRequested } := by
  obtain ⟨q, b, rfl⟩ := h
  rfl

theorem SameButDisplay.tick {s u : State} (h : SameButDisplay s u) : SameButDisplay (tick s) (tick u) := by
  obtain ⟨q, b, rfl⟩ := h
  exact ⟨q, b, by rw [tick_eq, tick_eq]; rfl⟩

theorem SameButDisplay.drawPixel {s u : State} (h : SameButDisplay s u) (xx yy : Nat) :
    SameButDisplay (drawPixel s xx yy) (drawPixel u xx yy) := by
  obtain ⟨q, b, rfl⟩ := h
  rw [Machine.drawPixel, Machine.drawPixel]
  split
  next hin =>
    refine ⟨q ++ [⟨⟨xx, hin.1⟩, ⟨yy, hin.2⟩, !pixelAt s ⟨xx, hin.1⟩ ⟨yy, hin.2⟩⟩], b, ?_⟩
    have hsame : pixelAt (withDisplay q b s) ⟨xx, hin.1⟩ ⟨yy, hin.2⟩ = pixelAt s ⟨xx, hin.1⟩ ⟨yy, hin.2⟩ := rfl
    simp only [flipPixel, hsame]
    cases pixelAt s ⟨xx, hin.1⟩ ⟨yy, hin.2⟩ <;> rfl
  next => exact ⟨q, b, rfl⟩

theorem SameButDisplay.drawAt (l : List (Nat × Nat)) {s u : State} (h : SameButDisplay s u) :
    SameButDisplay (drawAt s l) (drawAt u l) := by
  induction l generalizing s u with
  | nil => exact h
  | cons p l ih => exact ih (h.drawPixel p.1 p.2)

theorem SameButDisplay.advance {s u : State} (h : SameButDisplay s u) (k : Nat) :
    SameButDisplay (advance s k) (advance u k) := by
  obtain ⟨q, b, rfl⟩ := h
  exact ⟨q, b, rfl⟩

theorem storeRegList_withDisplay (l : List Reg) (q : List PixelRecord) (b : Bool) (s : State) :
    storeRegList (withDisplay q b s) l = withDisplay q b (storeRegList s l) := by
  induction l generalizing s with
  | nil => rfl
  | cons i l ih => exact ih (writeByte s (effAddr s i.val) (getV s i))

theorem loadRegList_withDisplay (l : List Reg) (q : List PixelRecord) (b : Bool) (s : State) :
    loadRegList (withDisplay q b s) l = withDisplay q b (loadRegList s l) := by
  induction l generalizing s with
  | nil => rfl
  | cons i l ih => exact ih (setV s i (readByte s (effAddr s i.val)))

theorem execFault_withDisplay (i : Instr) (q : List PixelRecord) (b : Bool) (s : State) :
    execFault i (withDisplay q b s) = execFault i s := by
  cases i <;> rfl

/-- Completing an instruction reads neither: CLS sets the flag and DRW appends to the queue. -/
theorem completed_withDisplay (i : Instr) (q : List PixelRecord) (b : Bool) (s : State) :
    SameButDisplay (completed i s) (completed i (withDisplay q b s)) := by
  cases i
  case cls => exact ⟨q, true, rfl⟩
  case drw x y n =>
    have hcleared : SameButDisplay (setV s VF 0) (setV (withDisplay q b s) VF 0) := ⟨q, b, rfl⟩
    rw [completed, completed, drawRows_eq, drawRows_eq]
    exact (hcleared.drawAt _).advance 2
  case storeRegs x => exact ⟨q, b, congrArg (advance · 2) (storeRegList_withDisplay (regsUpTo x) q b s)⟩
  case loadRegs x => exact ⟨q, b, congrArg (advance · 2) (loadRegList_withDisplay (regsUpTo x) q b s)⟩
  case ldKey x =>
    have hkey : lowestKey (withDisplay q b s) = lowestKey s := rfl
    rw [completed, completed, hkey]
    cases lowestKey s with
    | none => exact ⟨q, b, rfl⟩
    | some k => exact ⟨q, b, rfl⟩
  all_goals exact ⟨q, b, rfl⟩

/-- Settles O12: with other contents in the two fields a step has the same form, and each form keeps the other fields. -/
theorem queueAndRedrawFlagUnobservable : Obligations.QueueAndRedrawFlagUnobservable := by
  unfold Obligations.QueueAndRedrawFlagUnobservable
  intro s u q b h
  suffices hstep : ∃ u', step (withDisplay q b s) = .next u' ∧ SameButDisplay u u' from
    hstep.imp fun u' hu => ⟨hu.1, hu.2.eq⟩
  have hfault : execFault (fetched (withDisplay q b s)) (withDisplay q b s) = execFault (fetched s) s :=
    execFault_withDisplay (fetched s) q b s
  obtain ⟨hf, rfl⟩ | ⟨hf, hp, rfl⟩ | ⟨hf, hp, f, hraised, rfl⟩ | ⟨hf, hp, hnone, rfl⟩ := step_forms h
  · exact ⟨_, step_halted (withDisplay q b s) hf, q, b, rfl⟩
  · exact ⟨_, step_fetch_fault (withDisplay q b s) hf hp, q, b, rfl⟩
  · exact ⟨_, step_of_execFault (s := withDisplay q b s) hf hp (hfault.trans hraised), q, b, rfl⟩
  · exact ⟨_, step_of_completed (s := withDisplay q b s) hf hp (hfault.trans hnone),
      (completed_withDisplay (fetched s) q b (latched s)).tick⟩

end Sys2Proof.Proofs
end

section
/-! PROOFS. The machine's invariant (R42, R60, R220 to R226): reset meets it, and every step and every host operation
keeps it, so every schedule does. -/

namespace Sys2Proof.Proofs

open Sys2Proof.Machine Sys2Proof.Claims

/-- Settles O14: nothing is listed, no entry is live and no fault is recorded. -/
theorem resetMeetsInvariant : Obligations.ResetMeetsInvariant := by
  unfold Obligations.ResetMeetsInvariant
  exact ⟨Memory.wf_nil, fun k hk => absurd hk (Nat.not_lt_zero k.val), rfl⟩

/-! ### Memory (R60) -/

theorem wf_storeRegList (l : List Reg) {s : State} (h : Memory.wf s.memory = true)
    (hl : ∀ r ∈ l, s.I.toNat + r.val ≤ 4095) : Memory.wf (storeRegList s l).memory = true := by
  induction l generalizing s with
  | nil => exact h
  | cons i l ih =>
    obtain ⟨hi, hrest⟩ := List.forall_mem_cons.mp hl
    exact ih (s := writeByte s (effAddr s i.val) (getV s i))
      (Memory.wf_write s.memory (effAddr s i.val) (getV s i) h (Nat.lt_succ_of_le hi)) hrest

theorem memFault_eq_none {a : Nat} (h : memFault a = none) : a ≤ 4095 := by
  by_contra hlt
  rw [memFault, if_pos (by omega)] at h
  exact Option.some_ne_none _ h

/-- A completed instruction stores inside memory only, so the canonical form is kept. -/
theorem wf_completed {i : Instr} {s : State} (h : Memory.wf s.memory = true) (hf : execFault i s = none) :
    Memory.wf (completed i s).memory = true := by
  cases i
  case ldB x =>
    have htop : s.I.toNat + 2 ≤ 4095 := memFault_eq_none hf
    have h0 := Memory.wf_write s.memory (effAddr s 0) (hundreds (getV s x)) h (by rw [effAddr]; omega)
    have h1 := Memory.wf_write _ (effAddr s 1) (tens (getV s x)) h0 (by rw [effAddr]; omega)
    exact Memory.wf_write _ (effAddr s 2) (ones (getV s x)) h1 (by rw [effAddr]; omega)
  case storeRegs x =>
    have htop : s.I.toNat + x.val ≤ 4095 := memFault_eq_none hf
    refine wf_storeRegList (regsUpTo x) h fun r hr => ?_
    have hrx : r.val ≤ x.val := (mem_regsUpTo x r).mp hr
    omega
  all_goals rw [completed_memory rfl]; exact h

/-! ### The call stack (R42) -/

theorem liveStackOk_congr {s t : State} (hstack : t.stack = s.stack) (hsp : t.sp = s.sp) (h : s.liveStackOk) :
    t.liveStackOk := by
  rw [State.liveStackOk, hstack, hsp]
  exact h

/-- A call pushes an address a fetch succeeded at; a return leaves fewer live entries; nothing else writes the stack. -/
theorem liveStackOk_completed {i : Instr} {s : State} (hp : s.pc.toNat ≤ 4094) (h : s.liveStackOk)
    (hf : execFault i s = none) : (completed i s).liveStackOk := by
  obtain ⟨-, -, -, hstack, hsp, -⟩ := specialRegisterFrame i s _ (exec_of_execFault_none hf)
  cases i
  case call nnn =>
    have hroom : s.sp.val ≠ 16 := fun hfull => absurd hf (by simp [execFault, hfull])
    have hsp' : (Fin.ofNat 17 (s.sp.val + 1)).val = s.sp.val + 1 := Nat.mod_eq_of_lt (by omega)
    intro k hk
    change k.val < (Fin.ofNat 17 (s.sp.val + 1)).val at hk
    change ((s.stack.setIfInBounds s.sp.val s.pc)[k.val]).toNat ≤ 4094
    rw [Vector.getElem_setIfInBounds]
    split
    · exact hp
    · exact h k (by omega)
  case ret =>
    have hsp' : (Fin.ofNat 17 (s.sp.val - 1)).val = s.sp.val - 1 := Nat.mod_eq_of_lt (by omega)
    intro k hk
    change k.val < (Fin.ofNat 17 (s.sp.val - 1)).val at hk
    exact h k (by omega)
  all_goals exact liveStackOk_congr hstack hsp h

/-! ### The fault register's record (R220 to R226) -/

theorem faultOk_of_none {s : State} (h : s.fault = none) : s.faultOk = true := by
  rw [State.faultOk, h]

/-- An address that a transfer of at most 16 bytes from `I` would reach out of memory is one the record allows. -/
theorem faultOk_raise_memFault {s : State} {a : Nat} {f : CoreFault} (h : memFault a = some f)
    (ha : a ≤ s.I.toNat + 15) : (raise s f).faultOk = true := by
  have hI : s.I.toNat < 65536 := s.I.isLt
  rw [memFault] at h
  split at h
  next hlt =>
    obtain rfl := Option.some.inj h
    exact decide_eq_true ⟨hlt, by omega⟩
  next => exact absurd h.symm (Option.some_ne_none f)

theorem faultOk_raise_key {s : State} {v : Byte} {f : CoreFault}
    (h : (if 15 < v.toNat then some (CoreFault.keyIndexOutOfRange v) else none) = some f) :
    (raise s f).faultOk = true := by
  split at h
  next hlt =>
    obtain rfl := Option.some.inj h
    exact decide_eq_true hlt
  next => exact absurd h.symm (Option.some_ne_none f)

/-- The state bears out every fault the execute phase raises in it. -/
theorem faultOk_raise {i : Instr} {s : State} {f : CoreFault} (h : execFault i s = some f) :
    (raise s f).faultOk = true := by
  cases i
  case call nnn =>
    rw [execFault] at h
    split at h
    next hfull =>
      obtain rfl := Option.some.inj h
      have hsp : s.sp = 16 := Fin.ext hfull
      simp [State.faultOk, hsp]
    next => exact absurd h.symm (Option.some_ne_none f)
  case ret =>
    rw [execFault] at h
    split at h
    next hempty =>
      obtain rfl := Option.some.inj h
      have hsp : s.sp = 0 := Fin.ext hempty
      simp [State.faultOk, hsp]
    next => exact absurd h.symm (Option.some_ne_none f)
  case ldB x => exact faultOk_raise_memFault h (by omega)
  case storeRegs x => exact faultOk_raise_memFault h (by omega)
  case loadRegs x => exact faultOk_raise_memFault h (by omega)
  case drw x y n =>
    rw [execFault] at h
    split at h
    next => exact absurd h.symm (Option.some_ne_none f)
    next => exact faultOk_raise_memFault h (by omega)
  case skp x => exact faultOk_raise_key h
  case sknp x => exact faultOk_raise_key h
  all_goals exact absurd h.symm (Option.some_ne_none f)

/-! ### The step and the host's operations -/

/-- Settles O15: each of the four forms of a step keeps the three parts. -/
theorem stepKeepsInvariant : Obligations.StepKeepsInvariant := by
  unfold Obligations.StepKeepsInvariant
  intro s u ⟨hwf, hlive, hok⟩ h
  obtain ⟨-, rfl⟩ | ⟨-, hp, rfl⟩ | ⟨-, -, f, hfault, rfl⟩ | ⟨hf, hp, hnone, rfl⟩ := step_forms h
  · exact ⟨hwf, hlive, hok⟩
  · refine ⟨hwf, hlive, ?_⟩
    simp [State.faultOk, hp]
  · exact ⟨hwf, hlive, faultOk_raise ((execFault_latched _ s).trans hfault)⟩
  · have hnone' := (execFault_latched _ s).trans hnone
    rw [tick_eq]
    exact ⟨wf_completed (s := latched s) hwf hnone', liveStackOk_completed (s := latched s) hp hlive hnone',
      faultOk_of_none ((completed_fault _ (latched s)).trans hf)⟩

theorem inv_putKey (k : Nat) (down : Bool) {s : State} (h : s.Inv) : (putKey k down s).Inv := by
  rw [putKey]
  split
  · exact h
  · exact h

/-- A loaded image ends inside memory, since it is at most 3584 bytes long (R262). -/
theorem inv_loadProgram (bytes : List Byte) {s : State} (h : s.Inv) : (loadProgram bytes s).Inv := by
  obtain ⟨hwf, hrest⟩ := h
  rw [loadProgram]
  split
  next hfits =>
    have hlen : bytes.length ≤ 3584 := (imageFits_iff bytes).mp hfits
    exact ⟨Memory.wf_writeList bytes s.memory 0x200 hwf (by omega), hrest⟩
  next => exact ⟨hwf, hrest⟩

/-- Every host operation answers a next state and keeps the invariant. -/
theorem hostEffect_keeps_inv (op : HostOp) {s : State} (h : s.Inv) : ∃ t, hostEffect op s = .next t ∧ t.Inv := by
  cases op with
  | step =>
    obtain ⟨u, hu⟩ := step_next s
    exact ⟨u, hu, stepKeepsInvariant s u h hu⟩
  | reset => exact ⟨_, rfl, resetMeetsInvariant⟩
  | loadProgram bytes => exact ⟨_, rfl, inv_loadProgram bytes h⟩
  | setKey k => exact ⟨_, rfl, inv_putKey k true h⟩
  | clearKey k => exact ⟨_, rfl, inv_putKey k false h⟩
  | getPixel xx yy => exact ⟨_, rfl, h⟩
  | drainPixelEvents => exact ⟨_, rfl, h⟩
  | ackRedraw => exact ⟨_, rfl, h⟩

/-- Settles O16: by induction over the schedule, each operation keeps the invariant for the rest. -/
theorem everyScheduleKeepsInvariant : Obligations.EveryScheduleKeepsInvariant := by
  unfold Obligations.EveryScheduleKeepsInvariant
  intro ops
  induction ops with
  | nil => exact fun s h => ⟨s, rfl, h⟩
  | cons op ops ih =>
    intro s h
    obtain ⟨t, ht, hinv⟩ := hostEffect_keeps_inv op h
    obtain ⟨u, hu, hinv'⟩ := ih t hinv
    exact ⟨u, (runSchedule_cons_of_next ht ops).trans hu, hinv'⟩

end Sys2Proof.Proofs
end

section
/-! PROOFS. Reset and the host's operations (R41, R234 to R239, R260 to R264). -/

namespace Sys2Proof.Proofs

open Sys2Proof.Machine Sys2Proof.Claims

/-! ### Reset (R41) -/

/-- After reset a byte is the font's, or zero above it (R77). -/
theorem readByte_reset (a : Nat) : readByte State.reset a = if a < 80 then font.getD a 0 else 0 := by
  change font.getD a 0 = _
  have hlen : font.length = 80 := rfl
  split
  next => rfl
  next hge => exact List.getD_eq_default font 0 (by omega)

theorem getV_reset (r : Reg) : getV State.reset r = 0 := Vector.getElem_replicate r.isLt

/-- Settles O17: every field is read off the reset state, and the host's reset is that state but for the count. -/
theorem resetLeavesTheTable : Obligations.ResetLeavesTheTable := by
  unfold Obligations.ResetLeavesTheTable
  refine ⟨fun s => rfl, readByte_reset, getV_reset, rfl, rfl, fun k => Vector.getElem_replicate k.isLt, rfl, rfl, rfl,
    fun xx yy => pixelAt_of_blankScreen rfl xx yy, fun k => Vector.getElem_replicate k.isLt, rfl, rfl, rfl, rfl, rfl⟩

/-! ### Keys (R236, R237) -/

theorem putKey_of_lt (k : Key) (down : Bool) (s : State) :
    putKey k.val down s = { s with keys := s.keys.set k.val down } := dif_pos k.isLt

theorem putKey_of_ge {k : Nat} (h : 15 < k) (down : Bool) (s : State) : putKey k down s = s := dif_neg (by omega)

/-- A host write of one key, down or up. -/
theorem putKey_writes_one_key (k : Key) (down : Bool) (s : State) :
    (putKey k.val down s).keys[k] = down ∧ (∀ j : Key, j ≠ k → (putKey k.val down s).keys[j] = s.keys[j]) ∧
    putKey k.val down s = { s with keys := (putKey k.val down s).keys } ∧
    putKey k.val down (putKey k.val down s) = putKey k.val down s := by
  rw [putKey_of_lt, putKey_of_lt]
  refine ⟨Vector.getElem_set_self k.isLt, fun j hj => ?_, rfl, ?_⟩
  · exact Vector.getElem_set_ne k.isLt j.isLt fun h => hj (Fin.ext h.symm)
  · simp only [Vector.set_set]

/-- Settles O18: both operations are the one key write, which needs an index of at most 15. -/
theorem hostWritesOneKey : Obligations.HostWritesOneKey := by
  unfold Obligations.HostWritesOneKey
  have write (down : Bool) (op : Key → HostOp) (hop : ∀ k s, hostEffect (op k) s = .next (putKey k.val down s))
      (k : Key) (s : State) : ∃ t, hostEffect (op k) s = .next t ∧ t.keys[k] = down ∧
        (∀ j : Key, j ≠ k → t.keys[j] = s.keys[j]) ∧ t = { s with keys := t.keys } ∧ hostEffect (op k) t = .next t := by
    obtain ⟨hkey, hother, hframe, htwice⟩ := putKey_writes_one_key k down s
    exact ⟨_, hop k s, hkey, hother, hframe, (hop k _).trans (congrArg Host.Outcome.next htwice)⟩
  refine ⟨write true (fun k => .setKey k.val) fun _ _ => rfl, write false (fun k => .clearKey k.val) fun _ _ => rfl,
    fun k s h => ⟨?_, ?_⟩⟩
  · rw [hostEffect, putKey_of_ge h]
  · rw [hostEffect, putKey_of_ge h]

/-! ### Display operations (R238, R239) -/

/-- Settles O21: each operation's reply and effect, read off its definition. -/
theorem displayOperations : Obligations.DisplayOperations := by
  unfold Obligations.DisplayOperations
  exact ⟨fun xx yy s => ⟨rfl, rfl⟩, fun s => ⟨rfl, rfl⟩, fun s => rfl⟩

/-! ### Loading an image that fits (R262, R264) -/

theorem loadProgram_of_fits {bytes : List Byte} (h : bytes.length ≤ 3584) (s : State) :
    loadProgram bytes s = { s with memory := Memory.writeList s.memory 0x200 bytes } :=
  if_pos ((imageFits_iff bytes).mpr h)

/-- Settles O19: the image is the bytes written from 0x200 on, and the rest of memory reads as before. -/
theorem loadProgramCopiesImage : Obligations.LoadProgramCopiesImage := by
  unfold Obligations.LoadProgramCopiesImage
  intro bytes s hlen
  refine ⟨if_pos ((imageFits_iff bytes).mpr hlen), _, congrArg Host.Outcome.next (loadProgram_of_fits hlen s),
    fun i hi => Memory.read_writeList_same bytes s.memory 0x200 i hi,
    fun a ha => Memory.read_writeList_other bytes s.memory 0x200 a ha, rfl⟩

/-- Settles O22: the loaded state reads the image's first two bytes at 0x200, where `pc` is, and no fault halts it. -/
theorem bootRunsTheFirstWord : Obligations.BootRunsTheFirstWord := by
  unfold Obligations.BootRunsTheFirstWord
  intro b0 b1 rest s hrest
  have hlen : (b0 :: b1 :: rest).length ≤ 3584 := Nat.add_le_add_right hrest 2
  obtain ⟨-, t, hload, hbyte, -, hframe⟩ := loadProgramCopiesImage (b0 :: b1 :: rest) (resetCore s) hlen
  have hpc : t.pc = 0x200 := by rw [hframe]; rfl
  have hfault : t.fault = none := by rw [hframe]; rfl
  have hp : t.pc.toNat = 0x200 := congrArg BitVec.toNat hpc
  have hword : fetchWord t t.pc.toNat = BitVec.ofNat 16 (b0.toNat * 256 + b1.toNat) := by
    rw [hp, fetchWord, hbyte 0 (Nat.succ_pos _), hbyte 1 (Nat.succ_lt_succ (Nat.succ_pos _)),
      ← wordOfBytes_toNat, BitVec.ofNat_toNat, BitVec.setWidth_eq]
    rfl
  refine ⟨t, ?_, hpc, hfault, ?_⟩
  · calc runSchedule [.reset, .loadProgram (b0 :: b1 :: rest)] s
        = runSchedule [.loadProgram (b0 :: b1 :: rest)] (resetCore s) := runSchedule_cons_of_next rfl _
      _ = hostEffect (.loadProgram (b0 :: b1 :: rest)) (resetCore s) := runSchedule_singleton _ _
      _ = .next t := hload
  · rw [step_exec t hfault (by omega), hword]
    rfl

end Sys2Proof.Proofs
end
